-- ==== Sys2Proof/Word.lean ====
section
/-! DEFINITION. The block's words: a 32-bit register or bus word (R8), an 8-bit channel or payload byte (R7), a bit (R15). -/

namespace Sys2Proof

/-- A control register, a bus address or the data of a bus access (R8). -/
abbrev Word := BitVec 32

/-- A channel value or a payload byte, unsigned, 0 to 255 (R7). -/
abbrev Byte := BitVec 8

/-- A bit, 1 or 0 (R15). -/
abbrev Bit := BitVec 1

end Sys2Proof
end

