-- ==== Sys2Proof/Config.lean ====
section
/-! DEFINITION. What an implementation fixes (the buffer sizes, R5 and R6) and the values the spec leaves open (R196, R198,
R203). The open values are opaque constants: nothing in Lean evaluates them, so what is proved holds for every value. -/

namespace Sys2Proof

/-- The parameters of R5 and R6. -/
structure Params where
  /-- MAX_CHAN, the number of channel entries the CHAN buffer holds (R5). -/
  maxChan : Nat
  /-- MAX_PAY, the number of bytes the PAY buffer holds (R6). -/
  maxPay : Nat
deriving DecidableEq, Repr

/-- MAX_BITS = 8·MAX_PAY, the number of bit entries the BITS buffer holds (R6). -/
def Params.maxBits (p : Params) : Nat := 8 * p.maxPay

/-- The constraints of R5 and R6: 3 ≤ MAX_CHAN ≤ MAX_BITS ≤ 2^28 and MAX_PAY ≥ 1. -/
abbrev Params.Legal (p : Params) : Prop :=
  3 ≤ p.maxChan ∧ p.maxChan ≤ p.maxBits ∧ 1 ≤ p.maxPay ∧ p.maxBits ≤ 2 ^ 28

/-- Every legal pair, by two independent choices: MAX_PAY − 1 below 2^25 and MAX_CHAN − 3 below 8·MAX_PAY − 2 (R5, R6). -/
def Params.ofSizes (pay : Fin 33554432) (chan : Fin (8 * pay.val + 6)) : Params :=
  { maxChan := chan.val + 3, maxPay := pay.val + 1 }

/-- `Params.ofSizes` reaches the legal pairs and no other. -/
theorem Params.legal_iff_ofSizes (p : Params) : p.Legal ↔ ∃ a b, p = Params.ofSizes a b := by
  constructor
  · obtain ⟨c, q⟩ := p
    rintro ⟨h1, h2, h3, h4⟩
    simp only [Params.maxBits] at h1 h2 h3 h4
    refine ⟨⟨q - 1, by omega⟩, ⟨c - 3, by simp only; omega⟩, ?_⟩
    simp only [Params.ofSizes, Params.mk.injEq]
    omega
  · rintro ⟨a, b, rfl⟩
    have ha := a.isLt
    have hb := b.isLt
    refine ⟨?_, ?_, ?_, ?_⟩ <;> simp only [Params.maxBits, Params.ofSizes] <;> omega

/-- This block's MAX_PAY − 1: open (D3, U1). Log entry 1. -/
opaque Config.paySize : Fin 33554432

/-- This block's MAX_CHAN − 3: open (D3, U1). Log entry 1. -/
opaque Config.chanSize : Fin (8 * Config.paySize.val + 6)

/-- This block's parameters: some legal pair, which no proof can see (R5, R6). Log entry 1. -/
def Config.params : Params := Params.ofSizes Config.paySize Config.chanSize

theorem Config.params_legal : Config.params.Legal :=
  (Params.legal_iff_ofSizes _).2 ⟨_, _, rfl⟩

/-- What CHAN[i] holds after the n-th power-on, until something writes it: a draw per entry (R198, U2). Log entry 3. -/
opaque Config.powerOnChan : Nat → Nat → Byte

/-- What BITS[i] holds after the n-th power-on, until something writes it: a draw per entry (R198, U2). Log entry 3. -/
opaque Config.powerOnBit : Nat → Nat → Bit

/-- What PAY[k] holds after the n-th power-on, until something writes it: a draw per entry (R198, U2). Log entry 3. -/
opaque Config.powerOnPay : Nat → Nat → Byte

/-- The data of a window read while STATUS.BUSY = 1: a fresh draw for each read (R203, U4). Log entry 4. -/
opaque Config.busyRead : Nat → Word

/-- What a reset in the middle of a command leaves in a CHAN or PAY entry the command could have written, by the draw's
number and the entry's index (R196, U3). Log entry 5. -/
opaque Config.abandonedByte : Nat → Nat → Byte

/-- What a reset in the middle of a command leaves in a BITS entry the command could have written (R196, U3). Log entry 5. -/
opaque Config.abandonedBit : Nat → Nat → Bit

end Sys2Proof
end

