-- ==== Sys2Proof/Machine/State.lean ====
section
/-! DEFINITION. The state of the block (R20) as plain data, its value right after reset (R195), and the ways a step can stop. -/

namespace Sys2Proof.Machine

/-- The engine's PHASE (R45). -/
inductive Phase where
  | idle
  | run
deriving DecidableEq, Repr

/-- The conditions a command completes with, in the order of their codes (R170). -/
inductive Code where
  | ok
  | capacityExceeded
  | malformedEncoding
  | unsupportedPixelFormat
  | gridTooLarge
  | illegalCommand
deriving DecidableEq, Repr

/-- The stored fields of STATUS (R25). The reserved bits read 0 and are not stored (R37). -/
structure Status where
  /-- Bit 0 (R26). -/
  busy : Bool
  /-- Bit 1 (R27). -/
  done : Bool
  /-- Bits 7:4 (R28). -/
  result : BitVec 4
  /-- Bit 8 (R29). -/
  busyErr : Bool
deriving DecidableEq, Repr

/-- The control registers, in the order of their offsets (R22). -/
inductive Reg where
  | id
  | cmd
  | status
  | width
  | height
  | channels
  | bitlen
  | bytelen
  | capacity
  | reqBits
  | availBits
deriving DecidableEq, Repr

/-- The three buffers (R39, R40, R41). -/
inductive Buffer where
  | chan
  | bits
  | pay
deriving DecidableEq, Repr

/-- What a host access reaches: a register, or a window from one entry on (R50). -/
inductive Target where
  | reg (r : Reg)
  | window (b : Buffer) (i : Nat)
deriving DecidableEq, Repr

/-- The width of a host access: 1, 2 or 4 bytes (R12). -/
inductive Size where
  | byte
  | half
  | word
deriving DecidableEq, Repr

/-- What happens to the block, one entry of the single interleaving of R67. -/
inductive Event where
  /-- MemRead(addr, n): a host read (R12). -/
  | read (addr : Word) (n : Size)
  /-- MemWrite(addr, n, v): a host write, whose data are the low n·8 bits of v (R12). -/
  | write (addr : Word) (n : Size) (v : Word)
  /-- The engine has the turn: its completion step, when one is enabled (R45, R209). -/
  | engine
  /-- The reset input is asserted while the block stays powered (R195, R196). -/
  | reset
  /-- A power-on reset (R195, R198). -/
  | powerOn
deriving DecidableEq, Repr

/-- What is stored of one buffer: the entries something has written, by index, in one canonical form (`Memory.wf`). An index
that is not listed has no stored value: its entry reads as its power-on draw (R198; log entry 3). At w = 8 a pair is a
`Host.Cell`. -/
abbrev Memory (w : Nat) := List (Nat × BitVec w)

/-- Everything the spec gives the block (R20), then the model's own fields. -/
structure State where
  /-- STATUS (R25). -/
  status : Status
  /-- WIDTH (R30). -/
  width : Word
  /-- HEIGHT (R30). -/
  height : Word
  /-- CHANNELS (R32). -/
  channels : Word
  /-- BITLEN (R33). -/
  bitlen : Word
  /-- BYTELEN (R34). -/
  bytelen : Word
  /-- REQ_BITS (R35). -/
  reqBits : Word
  /-- AVAIL_BITS (R36). -/
  availBits : Word
  /-- CHAN, MAX_CHAN entries of 8 bits (R39). -/
  chan : Memory 8
  /-- BITS, MAX_BITS entries of 1 bit (R40). -/
  bits : Memory 1
  /-- PAY, MAX_PAY entries of 8 bits (R41). -/
  pay : Memory 8
  /-- PHASE (R45). -/
  phase : Phase
  /-- POS, the position counter (R44). -/
  pos : Nat
  /-- OPL, the latched command word (R45). -/
  opl : Word
  /-- The model's own: MAX_CHAN and MAX_PAY, which no step changes (R5, R6). DESIGN CHOICE, log entry 1. -/
  params : Params
  /-- The model's own: the number of the last power-on, which names its draws (R198). Log entry 3. -/
  powerOns : Nat
  /-- The model's own: how many later draws have been made (R196, R203). Log entries 4 and 5. -/
  draws : Nat
  /-- The model's own: what is still to happen from outside, oldest first, the engine's turns among it (R67). Log entry 2. -/
  events : List Event
  /-- The model's own: the data returned by the host's reads, newest first (R12). Log entry 6. -/
  reads : List Word
deriving DecidableEq, Repr

/-- Why a step faults. -/
inductive Fault where
  /-- BusError(addr): a host access that the map does not admit (R51, R57, R62, R63). Raised by `memRead` and `memWrite`, never
  by a command. Safe: the spec makes it a fault of the host program whose run is not final (R175). DEDUCED, log entry 8. -/
  | busError (addr : Word)
deriving DecidableEq, Repr

/-- Why a step has no meaning. -/
inductive Refusal where
  /-- A command whose arm of `exec` gives it no meaning. No arm does: raised by nothing, safe. -/
  | notModelled (mnemonic : String)
deriving DecidableEq, Repr

/-- The machine right after its first power-on reset (R195, R22): every register at its stated value, the engine idle, and
nothing listed of the buffers, whose contents are draws (R198). -/
def State.reset : State where
  status := { busy := false, done := false, result := 0, busyErr := false }
  width := 0
  height := 0
  channels := 0
  bitlen := 0
  bytelen := 0
  reqBits := 0
  availBits := 0
  chan := []
  bits := []
  pay := []
  phase := .idle
  pos := 0
  opl := 0
  params := Config.params
  powerOns := 0
  draws := 0
  events := []
  reads := []

end Sys2Proof.Machine
end

