-- ==== Sys2Proof/Machine/Ops.lean ====
section
/-! DEFINITION. The named operations over memory, registers and the engine's phase. Every command's completion, whatever its
condition, is ONE operation, `State.complete`: the block has no traps (R180), and "entry" into a condition is the completion
step, which saves nothing and goes nowhere. -/

namespace Sys2Proof.Machine

/-! ## One buffer's stored entries -/

/-- The stored value of an index, none where nothing has written it. -/
def Memory.lookup {w : Nat} : Memory w → Nat → Option (BitVec w)
  | [], _ => none
  | (a, b) :: m, i => if i = a then some b else Memory.lookup m i

/-- Store v at index i, keeping the indexes strictly rising. -/
def Memory.write {w : Nat} : Memory w → Nat → BitVec w → Memory w
  | [], i, v => [(i, v)]
  | (a, b) :: m, i, v =>
    if i < a then (i, v) :: (a, b) :: m
    else if i = a then (i, v) :: m
    else (a, b) :: Memory.write m i v

/-- The canonical form: indexes strictly rising. An unlisted index has no stored value, so no entry can equal one. -/
def Memory.wf {w : Nat} : Memory w → Bool
  | [] => true
  | [_] => true
  | (a, _) :: (b, y) :: m => decide (a < b) && Memory.wf ((b, y) :: m)

/-- Every listed index is below n. -/
def Memory.below {w : Nat} (n : Nat) (m : Memory w) : Bool := m.all fun e => decide (e.1 < n)

/-! ## Loops of the rules' pseudocode -/

/-- `for i in 0 .. n-1: s <- f i s`, in increasing order. -/
def forUpTo {σ : Type} : (n : Nat) → (f : Nat → σ → σ) → σ → σ
  | 0, _, s => s
  | n + 1, f, s => f n (forUpTo n f s)

/-! ## The engine's reads and writes of one entry (R11) -/

/-- CHAN[i]: what was stored, or else the power-on draw (R39, R198). -/
def State.chanAt (s : State) (i : Nat) : Byte := (Memory.lookup s.chan i).getD (Config.powerOnChan s.powerOns i)

/-- BITS[i]: what was stored, or else the power-on draw (R40, R198). -/
def State.bitAt (s : State) (i : Nat) : Bit := (Memory.lookup s.bits i).getD (Config.powerOnBit s.powerOns i)

/-- PAY[k]: what was stored, or else the power-on draw (R41, R198). -/
def State.payAt (s : State) (k : Nat) : Byte := (Memory.lookup s.pay k).getD (Config.powerOnPay s.powerOns k)

/-- CHAN[i] <- v (R11). -/
def State.setChan (s : State) (i : Nat) (v : Byte) : State := { s with chan := Memory.write s.chan i v }

/-- BITS[i] <- b (R11). -/
def State.setBit (s : State) (i : Nat) (b : Bit) : State := { s with bits := Memory.write s.bits i b }

/-- PAY[k] <- v (R11). -/
def State.setPay (s : State) (k : Nat) (v : Byte) : State := { s with pay := Memory.write s.pay k v }

/-! ## Registers a command writes -/

/-- POS <- n (R44). -/
def State.setPos (s : State) (n : Nat) : State := { s with pos := n }

/-- BITLEN <- n (R101, R131). -/
def State.setBitlen (s : State) (n : Nat) : State := { s with bitlen := BitVec.ofNat 32 n }

/-- BYTELEN <- n (R146). -/
def State.setBytelen (s : State) (n : Nat) : State := { s with bytelen := BitVec.ofNat 32 n }

/-- The capacity report: REQ_BITS and AVAIL_BITS (R35, R36, R171). -/
def State.setReport (s : State) (required available : Word) : State :=
  { s with reqBits := required, availBits := available }

/-! ## Starting and ending a command -/

/-- The codes of R170. -/
def Code.toBits : Code → BitVec 4
  | .ok => 0
  | .capacityExceeded => 1
  | .malformedEncoding => 2
  | .unsupportedPixelFormat => 3
  | .gridTooLarge => 4
  | .illegalCommand => 5

/-- An accepted CMD write: the engine latches w into OPL, BUSY <- 1, DONE <- 0, POS <- 0 and PHASE is RUN
(R24, R26, R27, R45, R209). RESULT keeps its value (R28). -/
def State.accept (s : State) (w : Word) : State :=
  { s with status := { s.status with busy := true, done := false }, phase := .run, pos := 0, opl := w }

/-- complete(code): RESULT <- code, DONE <- 1, BUSY <- 0, and PHASE returns to IDLE, in one step (R13, R45). -/
def State.complete (s : State) (c : Code) : State :=
  { s with status := { s.status with busy := false, done := true, result := c.toBits }, phase := .idle }

/-! ## The host's side -/

/-- A read answers v (R12). -/
def State.respond (s : State) (v : Word) : State := { s with reads := v :: s.reads }

/-- A value left open has been drawn: the next draw is another. -/
def State.nextDraw (s : State) : State := { s with draws := s.draws + 1 }

/-- The registers and the engine as reset leaves them (R195); the buffers are not touched here. -/
def State.clearRegs (s : State) : State :=
  { s with
    status := { busy := false, done := false, result := 0, busyErr := false }
    width := 0
    height := 0
    channels := 0
    bitlen := 0
    bytelen := 0
    reqBits := 0
    availBits := 0
    phase := .idle
    pos := 0
    opl := 0 }

/-- Power-on leaves new draws in every buffer entry: nothing listed, and the next power-on's number (R198). -/
def State.clearBuffers (s : State) : State :=
  { s with chan := [], bits := [], pay := [], powerOns := s.powerOns + 1 }

end Sys2Proof.Machine
end

