-- ==== Sys2Proof/Machine/Flags.lean ====
section
/-! DEFINITION. The flags: the block's only ones are the STATUS fields (R38). -/

namespace Sys2Proof.Machine

/-- What STATUS reads: bits 31:9 reserved, BUSY_ERR, RESULT, bits 3:2 reserved, DONE, BUSY (R25, R37). -/
def Status.toWord (t : Status) : Word :=
  (0 : BitVec 23) ++ BitVec.ofBool t.busyErr ++ t.result ++ (0 : BitVec 2) ++ BitVec.ofBool t.done ++ BitVec.ofBool t.busy

/-- A host write the busy rule drops: it changes nothing it addresses and sets BUSY_ERR (R29, R202). -/
def State.dropWrite (s : State) : State := { s with status := { s.status with busyErr := true } }

/-- A host write of w to STATUS: bit 8 of w clears BUSY_ERR, no other field changes (R25, R29). -/
def State.writeStatus (s : State) (w : Word) : State :=
  { s with status := { s.status with busyErr := s.status.busyErr && !w.getLsbD 8 } }

end Sys2Proof.Machine
end

