-- ==== Sys2Proof/Machine/Operands.lean ====
section
/-! DEFINITION. The operands: what a command derives from the registers (R42, R118, R176, R177), the bits of a payload byte
(R101, R146), and what a host address names (R50 to R57). -/

namespace Sys2Proof.Machine

/-! ## Derived values and checks -/

/-- N = 3·WIDTH·HEIGHT, exact (R42, R9). -/
def State.streamLength (s : State) : Nat := 3 * s.width.toNat * s.height.toNat

/-- The capacity N − 1, an exact integer, −1 for an empty grid (R42, R118). -/
def State.capacity (s : State) : Int := (s.streamLength : Int) - 1

/-- The capacity modulo 2^32, as CAPACITY reads and AVAIL_BITS records it (R31, R36). -/
def State.capacityWord (s : State) : Word := BitVec.ofInt 32 s.capacity

/-- The grid checks of ENCODE and DECODE, in their order: the condition that refuses the grid, if any (R176, R177, R178). -/
def State.gridRefusal (s : State) : Option Code :=
  if s.channels ≠ 3 then some .unsupportedPixelFormat
  else if s.streamLength > s.params.maxChan then some .gridTooLarge
  else none

/-- PAY[k][j] (R101). -/
def State.payBit (s : State) (k j : Nat) : Bit := (s.payAt k).extractLsb' j 1

/-- The byte of BITS[8k] to BITS[8k + 7], the most significant bit first (R146). -/
def State.bitsByte (s : State) (k : Nat) : Byte :=
  s.bitAt (8 * k) ++ s.bitAt (8 * k + 1) ++ s.bitAt (8 * k + 2) ++ s.bitAt (8 * k + 3) ++
    s.bitAt (8 * k + 4) ++ s.bitAt (8 * k + 5) ++ s.bitAt (8 * k + 6) ++ s.bitAt (8 * k + 7)

/-! ## Host addresses -/

/-- The number of bytes of an access (R12). -/
def Size.bytes : Size → Nat
  | .byte => 1
  | .half => 2
  | .word => 4

/-- The offset of a register from address 0 (R22). -/
def Reg.offset : Reg → Nat
  | .id => 0x00
  | .cmd => 0x04
  | .status => 0x08
  | .width => 0x0C
  | .height => 0x10
  | .channels => 0x14
  | .bitlen => 0x18
  | .bytelen => 0x1C
  | .capacity => 0x20
  | .reqBits => 0x24
  | .availBits => 0x28

/-- The register at an offset (R22). -/
def Reg.ofOffset : Nat → Option Reg
  | 0x00 => some .id
  | 0x04 => some .cmd
  | 0x08 => some .status
  | 0x0C => some .width
  | 0x10 => some .height
  | 0x14 => some .channels
  | 0x18 => some .bitlen
  | 0x1C => some .bytelen
  | 0x20 => some .capacity
  | 0x24 => some .reqBits
  | 0x28 => some .availBits
  | _ => none

/-- The first address of a buffer's window (R54, R55, R56). -/
def Buffer.base : Buffer → Nat
  | .chan => 0x10000000
  | .bits => 0x20000000
  | .pay => 0x30000000

/-- The number of entries of a buffer, which is the number of bytes of its window (R39, R40, R41, R50). -/
def Buffer.length (p : Params) : Buffer → Nat
  | .chan => p.maxChan
  | .bits => p.maxBits
  | .pay => p.maxPay

/-- The access lies wholly inside the window and is naturally aligned (R57). -/
def Buffer.admits (p : Params) (b : Buffer) (a : Nat) (n : Size) : Bool :=
  decide (b.base ≤ a) && decide (a + n.bytes ≤ b.base + b.length p) && decide (a % n.bytes = 0)

/-- What a host access reaches; none is a bus error (R50, R51, R57, R62). A register access is 4 bytes at a register's offset. -/
def resolve (p : Params) (addr : Word) (n : Size) : Option Target :=
  let a := addr.toNat
  if a < 0x2C then
    if n = .word then (Reg.ofOffset a).map .reg else none
  else if Buffer.admits p .chan a n then some (.window .chan (a - Buffer.base .chan))
  else if Buffer.admits p .bits a n then some (.window .bits (a - Buffer.base .bits))
  else if Buffer.admits p .pay a n then some (.window .pay (a - Buffer.base .pay))
  else none

end Sys2Proof.Machine
end

