-- ==== Sys2Proof/Machine/Bus.lean ====
section
/-! DEFINITION. The host bus (R12): register reads and writes (R52, R53), window reads and writes (R57 to R61), the busy rules
(R202, R203) and the bus error (R63). Each access is one atomic operation (R65). -/

namespace Sys2Proof.Machine

/-! ## Registers -/

/-- What a register read returns (R52, R22). -/
def State.readReg (s : State) : Reg → Word
  | .id => 0x53544547
  | .cmd => 0
  | .status => s.status.toWord
  | .width => s.width
  | .height => s.height
  | .channels => s.channels
  | .bitlen => s.bitlen
  | .bytelen => s.bytelen
  | .capacity => s.capacityWord
  | .reqBits => s.reqBits
  | .availBits => s.availBits

/-- The registers whose writes the busy rule drops (R202). -/
def Reg.busyDrops : Reg → Bool
  | .cmd => true
  | .width => true
  | .height => true
  | .channels => true
  | .bitlen => true
  | .bytelen => true
  | .id => false
  | .status => false
  | .capacity => false
  | .reqBits => false
  | .availBits => false

/-- What a register write that is not dropped does (R53, R24, R29, R30, R32, R33, R34, R37). -/
def State.storeReg (s : State) (r : Reg) (v : Word) : State :=
  match r with
  | .cmd => s.accept v
  | .status => s.writeStatus v
  | .width => { s with width := v }
  | .height => { s with height := v }
  | .channels => { s with channels := v }
  | .bitlen => if v.toNat ≤ s.params.maxBits then { s with bitlen := v } else s
  | .bytelen => if v.toNat ≤ s.params.maxPay then { s with bytelen := v } else s
  | .id => s
  | .capacity => s
  | .reqBits => s
  | .availBits => s

/-- A register write, under the busy rule (R53, R202). -/
def State.writeReg (s : State) (r : Reg) (v : Word) : State :=
  if s.status.busy && r.busyDrops then s.dropWrite else s.storeReg r v

/-! ## Windows -/

/-- The read lane of an entry: the byte, or the bit zero-extended to 8 bits (R59, R60, R61). -/
def State.entryAt (s : State) (b : Buffer) (i : Nat) : Byte :=
  match b with
  | .chan => s.chanAt i
  | .bits => (s.bitAt i).setWidth 8
  | .pay => s.payAt i

/-- The store of a write lane in an entry: the byte, or its bit 0 (R59, R60, R61). -/
def State.setEntry (s : State) (b : Buffer) (i : Nat) (v : Byte) : State :=
  match b with
  | .chan => s.setChan i v
  | .bits => s.setBit i (v.extractLsb' 0 1)
  | .pay => s.setPay i v

/-- Byte lane j of a bus word: data bits [8j+7:8j] (R58). -/
def lane (v : Word) (j : Nat) : Byte := v.extractLsb' (8 * j) 8

/-- The data of a window read, little-endian: the entry at i in bits [7:0] (R58). -/
def State.readWindow (s : State) (b : Buffer) (i : Nat) (n : Size) : Word :=
  match n with
  | .byte => (s.entryAt b i).setWidth 32
  | .half => (s.entryAt b (i + 1) ++ s.entryAt b i).setWidth 32
  | .word => s.entryAt b (i + 3) ++ s.entryAt b (i + 2) ++ s.entryAt b (i + 1) ++ s.entryAt b i

/-- A window write: `for j in 0..n-1: E[i+j] <- lane_j(v)` (R58). -/
def State.writeWindow (s : State) (b : Buffer) (i : Nat) (n : Size) (v : Word) : State :=
  forUpTo n.bytes (fun j t => t.setEntry b (i + j) (lane v j)) s

/-- The low n·8 bits of a word: what an n-byte read can return (R12). -/
def Size.truncate (n : Size) (v : Word) : Word :=
  match n with
  | .byte => (v.setWidth 8).setWidth 32
  | .half => (v.setWidth 16).setWidth 32
  | .word => v

/-! ## Accesses -/

/-- MemRead(addr, n) (R12, R52, R58). While BUSY = 1 a window read returns a fresh draw (R203). -/
def memRead (addr : Word) (n : Size) (s : State) : Host.Outcome State Fault Refusal :=
  match resolve s.params addr n with
  | none => .fault (.busError addr)
  | some (.reg r) => .next (s.respond (s.readReg r))
  | some (.window b i) =>
    if s.status.busy then .next ((s.respond (n.truncate (Config.busyRead s.draws))).nextDraw)
    else .next (s.respond (s.readWindow b i n))

/-- MemWrite(addr, n, v) (R12, R53, R58). While BUSY = 1 a window write is dropped (R202). -/
def memWrite (addr : Word) (n : Size) (v : Word) (s : State) : Host.Outcome State Fault Refusal :=
  match resolve s.params addr n with
  | none => .fault (.busError addr)
  | some (.reg r) => .next (s.writeReg r v)
  | some (.window b i) => if s.status.busy then .next s.dropWrite else .next (s.writeWindow b i n v)

end Sys2Proof.Machine
end

