-- ==== Sys2Proof/Machine/BitPacker.lean ====
section
/-! DEFINITION. PACK, the BitPacker (R100 to R104). -/

namespace Sys2Proof.Machine

/-- `for k in 0 .. n-1: for j in 0 .. 7: BITS[8*k + j] <- PAY[k][7 - j]` (R101). -/
def State.packLoop (s : State) (n : Nat) : State :=
  forUpTo n (fun k t => forUpTo 8 (fun j u => u.setBit (8 * k + j) (u.payBit k (7 - j))) t) s

/-- PACK (R101). POS is left at the number of its data beats, 8·BYTELEN (R102). DEDUCED, log entry 9. -/
def execPack (s : State) : Host.Outcome State Fault Refusal :=
  let n := s.bytelen.toNat
  .next ((((s.packLoop n).setPos (8 * n)).setBitlen (8 * n)).complete .ok)

end Sys2Proof.Machine
end

