-- ==== Sys2Proof/Machine/BitUnpacker.lean ====
section
/-! DEFINITION. UNPACK, the BitUnpacker (R145 to R150). -/

namespace Sys2Proof.Machine

/-- `for k in 0 .. g-1: PAY[k] <- the byte of BITS[8k] to BITS[8k+7]` (R146). -/
def State.unpackLoop (s : State) (g : Nat) : State :=
  forUpTo g (fun k t => t.setPay k (t.bitsByte k)) s

/-- UNPACK (R146, R147). POS is left at the number of its data beats, BITLEN div 8 (R148). DEDUCED, log entry 9. -/
def execUnpack (s : State) : Host.Outcome State Fault Refusal :=
  let g := s.bitlen.toNat / 8
  .next ((((s.unpackLoop g).setPos g).setBytelen g).complete .ok)

end Sys2Proof.Machine
end

