-- ==== Sys2Proof/Machine/Control.lean ====
section
/-! DEFINITION. The control commands: NOP (R155), and the completion of an ILLEGAL command word (R156). -/

namespace Sys2Proof.Machine

/-- NOP: `complete(0)`, and nothing else (R155). -/
def execNop (s : State) : Host.Outcome State Fault Refusal := .next (s.complete .ok)

/-- An ILLEGAL command word: `complete(5)`, and nothing else (R85, R156, R173). -/
def completeIllegal (s : State) : State := s.complete .illegalCommand

end Sys2Proof.Machine
end

