-- ==== Sys2Proof/Machine/Decoder.lean ====
section
/-! DEFINITION. DECODE, the Decoder (R130 to R139). -/

namespace Sys2Proof.Machine

/-- The bit of a nonzero channel value: 1 if it is even, 0 if it is odd (R132). -/
def parityBit (v : Byte) : Bit := if v.toNat % 2 = 0 then 1 else 0

/-- Where DECODE stops, from position p with k positions left: the first position that holds 0, or the end (R133, R134). -/
def State.stopFrom (s : State) : (k p : Nat) → Nat
  | 0, p => p
  | k + 1, p => if s.chanAt p = 0 then p else s.stopFrom k (p + 1)

/-- The loop of R131 from position p with k = N − p positions left. POS is left at the number of data beats, p (R137). DEDUCED,
log entry 9. -/
def State.decodeLoop (s : State) : (k p : Nat) → State
  | 0, p => ((s.setPos p).setBitlen p).complete .malformedEncoding
  | k + 1, p =>
    if s.chanAt p = 0 then ((s.setPos p).setBitlen p).complete .ok
    else (s.setBit p (parityBit (s.chanAt p))).decodeLoop k (p + 1)

/-- DECODE (R131). -/
def execDecode (s : State) : Host.Outcome State Fault Refusal :=
  match s.gridRefusal with
  | some c => .next (s.complete c)
  | none => .next (s.decodeLoop s.streamLength 0)

end Sys2Proof.Machine
end

