-- ==== Sys2Proof/Machine/Encoder.lean ====
section
/-! DEFINITION. ENCODE, the Encoder (R110 to R125). -/

namespace Sys2Proof.Machine

/-- Zero forcing: a channel value 0 at a data position is replaced by 1 (R112). -/
def forceNonzero (v : Byte) : Byte := if v = 0 then 1 else v

/-- Adjust(v, b): keep v1 when its parity is the wanted one, else v1 − 1 above the pivot 128 and v1 + 1 at or below it
(R113, R114). At v1 = 128 the rule increments (90_conflicts C1). DEDUCED, log entry 10. -/
def adjust (v : Byte) (b : Bit) : Byte :=
  let v1 := forceNonzero v
  if v1.toNat % 2 = 0 ↔ b = 1 then v1
  else if v1.toNat > 128 then v1 - 1
  else v1 + 1

/-- `for i in 0 .. n-1: CHAN[i] <- Adjust(CHAN[i], BITS[i])` (R111, R116). -/
def State.encodeLoop (s : State) (n : Nat) : State :=
  forUpTo n (fun i t => t.setChan i (adjust (t.chanAt i) (t.bitAt i))) s

/-- CAPACITY_EXCEEDED: the report, no CHAN write, and completion (R111, R171). -/
def State.capacityExceeded (s : State) : State := (s.setReport s.bitlen s.capacityWord).complete .capacityExceeded

/-- ENCODE (R111). POS is left at the number of its data beats: 0 when a check ends it, else BITLEN (R121). DEDUCED,
log entry 9. -/
def execEncode (s : State) : Host.Outcome State Fault Refusal :=
  match s.gridRefusal with
  | some c => .next (s.complete c)
  | none =>
    let n := s.bitlen.toNat
    if s.capacity < (n : Int) then .next s.capacityExceeded
    else .next ((((s.encodeLoop n).setPos n).setChan n 0).complete .ok)

end Sys2Proof.Machine
end

