-- ==== Sys2Proof/Syntax.lean ====
section
/-! DEFINITION. The command set: one constructor for each row of spec/opcode_table.json (R83). -/

namespace Sys2Proof

/-- A command. Every operand is implicit: the command reads the control registers and buffers its rule names (R81, R82). -/
inductive Instr where
  /-- NOP, word 0x0000_0000 (R155). -/
  | nop
  /-- PACK, the BitPacker, word 0x0000_0001 (R100, R101). -/
  | pack
  /-- ENCODE, the Encoder, word 0x0000_0002 (R110, R111). -/
  | encode
  /-- DECODE, the Decoder, word 0x0000_0003 (R130, R131). -/
  | decode
  /-- UNPACK, the BitUnpacker, word 0x0000_0004 (R145, R146). -/
  | unpack
deriving DecidableEq, Repr

end Sys2Proof
end

