-- ==== Sys2Proof/Decode.lean ====
section
/-! DEFINITION. The decoder of a command word, total on every 32-bit word and rejecting by name (R84, R85), and the encoder
(R83). A command is ONE 32-bit word latched whole into OPL (R80, R71): there is no byte stream to decode. -/

namespace Sys2Proof

/-- Why a command word is ILLEGAL (R85). -/
inductive Reject where
  /-- Bits 31:4 are not all 0 (R80, R85). -/
  | reservedBits
  /-- OP is one of 0x5 to 0xF (R83, R85). -/
  | reservedOp
deriving DecidableEq, Repr

/-- The OP field, bits 3:0 (R80). -/
def opField (w : Word) : BitVec 4 := w.extractLsb' 0 4

/-- The RSVD field, bits 31:4 (R80). -/
def rsvdField (w : Word) : BitVec 28 := w.extractLsb' 4 28

/-- The command of an OP value (R83). -/
def decodeOp (op : BitVec 4) : Except Reject Instr :=
  match op.toNat with
  | 0 => .ok .nop
  | 1 => .ok .pack
  | 2 => .ok .encode
  | 3 => .ok .decode
  | 4 => .ok .unpack
  | _ => .error .reservedOp

/-- The decoder of R84. -/
def decode (w : Word) : Except Reject Instr :=
  if rsvdField w ≠ 0 then .error .reservedBits else decodeOp (opField w)

/-- The OP value of a command (R83). -/
def opOf : Instr → BitVec 4
  | .nop => 0x0
  | .pack => 0x1
  | .encode => 0x2
  | .decode => 0x3
  | .unpack => 0x4

/-- The encoder: RSVD = 0 above the OP value (R80, R83). -/
def encode (i : Instr) : Word := (0 : BitVec 28) ++ opOf i

/-- The word an opcode-table row stands for: the low nbits bits of w, zeros above them (R80: always one 32-bit word). -/
def tableWord (nbits w : Nat) : Word := BitVec.ofNat 32 (w % 2 ^ nbits)

/-- What the decoder reads from an opcode-table word. -/
def decodeTableWord (nbits w : Nat) : Option Instr :=
  match decode (tableWord nbits w) with
  | .ok i => some i
  | .error _ => none

end Sys2Proof
end

