-- ==== Sys2Proof/Machine/Reset.lean ====
section
/-! DEFINITION. The reset input after the first power-on: while the block stays powered (R195, R196), and at a later power-on
(R198). -/

namespace Sys2Proof.Machine

/-- CHAN[0..n-1] hold unspecified values (R196). -/
def State.forgetChan (s : State) (n : Nat) : State :=
  (forUpTo n (fun i t => t.setChan i (Config.abandonedByte t.draws i)) s).nextDraw

/-- BITS[0..n-1] hold unspecified bits (R196). -/
def State.forgetBits (s : State) (n : Nat) : State :=
  (forUpTo n (fun i t => t.setBit i (Config.abandonedBit t.draws i)) s).nextDraw

/-- PAY[0..n-1] hold unspecified values (R196). -/
def State.forgetPay (s : State) (n : Nat) : State :=
  (forUpTo n (fun i t => t.setPay i (Config.abandonedByte t.draws i)) s).nextDraw

/-- The entries a command could have written hold unspecified values when a reset abandons it (R196): its buffer outputs of
R82, none when its checks refuse it, for then none of its beats writes one (R119, R181). DEDUCED, log entry 5. -/
def State.abandon (s : State) (i : Instr) : State :=
  match i with
  | .nop => s
  | .pack => s.forgetBits (8 * s.bytelen.toNat)
  | .encode =>
    if s.gridRefusal.isNone && decide ((s.bitlen.toNat : Int) ≤ s.capacity) then s.forgetChan (s.bitlen.toNat + 1) else s
  | .decode => if s.gridRefusal.isNone then s.forgetBits (s.stopFrom s.streamLength 0) else s
  | .unpack => s.forgetPay (s.bitlen.toNat / 8)

/-- The buffers when reset is asserted: unchanged when the engine is idle (R198), as R196 says when a command runs. -/
def State.abandonRunning (s : State) : State :=
  match s.phase with
  | .idle => s
  | .run =>
    match decode s.opl with
    | .ok i => s.abandon i
    | .error _ => s

/-- A reset while the block stays powered (R195, R196, R198). -/
def State.warmReset (s : State) : State := s.abandonRunning.clearRegs

/-- A power-on reset: the registers as R195 says, every buffer entry a new draw (R198). -/
def State.powerOnReset (s : State) : State := s.clearBuffers.clearRegs

end Sys2Proof.Machine
end

