-- ==== Sys2Proof/Machine/Engine.lean ====
section
/-! DEFINITION. The engine's step and what each event does: the two agents of R20 and the reset input of R195, interleaved one
step at a time (R67, R209). -/

namespace Sys2Proof.Machine

/-- The completion step: the whole effect of the command decoded from OPL (R45, R84, R209). -/
def completionStep (s : State) : Host.Outcome State Fault Refusal :=
  match decode s.opl with
  | .ok i => exec i s
  | .error _ => .next (completeIllegal s)

/-- The engine's turn: the completion step when PHASE = RUN; an idle engine has no step (R45, R189). -/
def engineTurn (s : State) : Host.Outcome State Fault Refusal :=
  match s.phase with
  | .run => completionStep s
  | .idle => .next s

/-- One event of the interleaving (R67). -/
def perform (e : Event) (s : State) : Host.Outcome State Fault Refusal :=
  match e with
  | .read a n => memRead a n s
  | .write a n v => memWrite a n v s
  | .engine => engineTurn s
  | .reset => .next s.warmReset
  | .powerOn => .next s.powerOnReset

/-- The next event, taken off the list. With none left the engine has the turn, so a running command completes (R206). -/
def stepEvent (s : State) : Host.Outcome State Fault Refusal :=
  match s.events with
  | [] => engineTurn s
  | e :: rest => perform e { s with events := rest }

/-- s with the engine's turn next: in front of the pending events, if there are any. -/
def State.engineNext (s : State) : State :=
  match s.events with
  | [] => s
  | e :: rest => { s with events := .engine :: e :: rest }

/-- s as an accepted CMD write of w leaves it, with the engine's turn next (R24, R209). -/
def State.withCommand (s : State) (w : Word) : State := (s.accept w).engineNext

end Sys2Proof.Machine
end

