-- ==== Sys2Proof/Machine/Step.lean ====
section
/-! DEFINITION. The step of the machine, and the placing of a command where the next step runs it. -/

namespace Sys2Proof.Machine

/-- One step: the next event, or the engine's turn (R67, R209). -/
def step (s : State) : Host.Outcome State Fault Refusal := stepEvent s

/-- s with the command word of an opcode-table row latched in OPL as by an accepted CMD write, the engine to move next, so
that the very next step runs it (R24, R71, R209). Log entry 7. -/
def State.withFetchWord (s : State) (nbits w : Nat) : State := s.withCommand (Sys2Proof.tableWord nbits w)

end Sys2Proof.Machine
end

