-- ==== Sys2Proof/Machine/Beats.lean ====
section
/-! DEFINITION. The engine beat by beat (R102, R121, R137, R148): the sequential implementation that the completion step of
`exec` stands for (R209). No beat is visible to the host, so the machine's step does not run them; statements compare the two. -/

namespace Sys2Proof.Machine

/-- Beats, one after the other, until the command completes: at most the given number of them (R206). -/
def runBeats (beat : State → State) : Nat → State → State
  | 0, s => s
  | n + 1, s =>
    match s.phase with
    | .run => runBeats beat n (beat s)
    | .idle => s

/-- A beat of PACK: BITS[POS] <- PAY[POS div 8][7 − (POS mod 8)]; after the last, BITLEN and completion (R102). -/
def packBeat (s : State) : State :=
  if s.pos < 8 * s.bytelen.toNat then (s.setBit s.pos (s.payBit (s.pos / 8) (7 - s.pos % 8))).setPos (s.pos + 1)
  else (s.setBitlen (8 * s.bytelen.toNat)).complete .ok

/-- The check beat of ENCODE: it completes when a check fails, and changes nothing when all pass (R111, R121). -/
def encodeCheckBeat (s : State) : State :=
  match s.gridRefusal with
  | some c => s.complete c
  | none => if s.capacity < (s.bitlen.toNat : Int) then s.capacityExceeded else s

/-- A data beat of ENCODE, and at POS = BITLEN the sentinel beat, which completes (R121). -/
def encodeBeat (s : State) : State :=
  if s.pos < s.bitlen.toNat then (s.setChan s.pos (adjust (s.chanAt s.pos) (s.bitAt s.pos))).setPos (s.pos + 1)
  else (s.setChan s.pos 0).complete .ok

/-- The check beat of DECODE (R137). -/
def decodeCheckBeat (s : State) : State :=
  match s.gridRefusal with
  | some c => s.complete c
  | none => s

/-- A beat of DECODE: at POS = N it completes and reads nothing; at a 0 it completes; else it writes BITS[POS] (R137). -/
def decodeBeat (s : State) : State :=
  if s.pos = s.streamLength then (s.setBitlen s.pos).complete .malformedEncoding
  else if s.chanAt s.pos = 0 then (s.setBitlen s.pos).complete .ok
  else (s.setBit s.pos (parityBit (s.chanAt s.pos))).setPos (s.pos + 1)

/-- A beat of UNPACK: PAY[POS] from BITS[8·POS] to BITS[8·POS + 7]; after the last, BYTELEN and completion (R148). -/
def unpackBeat (s : State) : State :=
  if s.pos < s.bitlen.toNat / 8 then (s.setPay s.pos (s.bitsByte s.pos)).setPos (s.pos + 1)
  else (s.setBytelen (s.bitlen.toNat / 8)).complete .ok

/-- The command beat by beat, with the number of beats R206 gives it. -/
def execByBeats (i : Instr) (s : State) : State :=
  match i with
  | .nop => s.complete .ok
  | .pack => runBeats packBeat (8 * s.bytelen.toNat + 1) s
  | .encode => runBeats encodeBeat (s.bitlen.toNat + 1) (encodeCheckBeat s)
  | .decode => runBeats decodeBeat (s.streamLength + 1) (decodeCheckBeat s)
  | .unpack => runBeats unpackBeat (s.bitlen.toNat / 8 + 1) s

end Sys2Proof.Machine
end

