-- ==== Sys2Proof/Safety.lean ====
section
/-! DEFINITION. What counts as a good state and as a finished run, in the terms the statements use. -/

namespace Sys2Proof.Machine

/-- The legal states of the block: the parameters meet R5 and R6; the stored entries are in canonical form and inside their
buffers (R39, R40, R41); BITLEN and BYTELEN hold legal values (R33, R34); PHASE = RUN exactly when BUSY = 1 (R45); DONE is 0
while a command runs (R27); RESULT is one of the codes of R170; POS is in its range (R44), and 0 while a command that has made
no completion step runs (R209). -/
structure State.Inv (s : State) : Prop where
  params : s.params.Legal
  chanForm : Memory.wf s.chan = true
  bitsForm : Memory.wf s.bits = true
  payForm : Memory.wf s.pay = true
  chanInside : Memory.below s.params.maxChan s.chan = true
  bitsInside : Memory.below s.params.maxBits s.bits = true
  payInside : Memory.below s.params.maxPay s.pay = true
  bitlenLegal : s.bitlen.toNat ≤ s.params.maxBits
  bytelenLegal : s.bytelen.toNat ≤ s.params.maxPay
  phaseBusy : s.phase = .run ↔ s.status.busy = true
  notDone : s.status.busy = true → s.status.done = false
  resultCode : s.status.result.toNat ≤ 5
  posRange : s.pos ≤ s.params.maxBits
  posStart : s.phase = .run → s.pos = 0

/-- The windows of the map in R50's numbers: the buffer, its first address and its number of bytes. -/
def WindowOf (p : Params) (b : Buffer) (base len : Nat) : Prop :=
  (b = .chan ∧ base = 0x10000000 ∧ len = p.maxChan) ∨
  (b = .bits ∧ base = 0x20000000 ∧ len = 8 * p.maxPay) ∨
  (b = .pay ∧ base = 0x30000000 ∧ len = p.maxPay)

/-- The number an entry of a buffer holds: 0 to 255 in CHAN and PAY, 0 or 1 in BITS (R39, R40, R41). -/
def State.entryValue (s : State) : Buffer → Nat → Nat
  | .chan, i => (s.chanAt i).toNat
  | .bits, i => (s.bitAt i).toNat
  | .pay, i => (s.payAt i).toNat

/-- The accesses the map admits: a 4-byte aligned register access (R51), or a naturally aligned access wholly inside a window
(R57). Every other access is a bus error (R62). -/
def MapAdmits (p : Params) (a : Nat) (n : Size) : Prop :=
  (a < 0x2C ∧ n = .word ∧ a % 4 = 0) ∨
  ∃ b base len, WindowOf p b base len ∧ base ≤ a ∧ a + n.bytes ≤ base + len ∧ a % n.bytes = 0

/-- The engine has the turn: its entry is next in the interleaving, or nothing is left of it (log entry 2). -/
def State.engineMoves (s : State) : Prop := s.events = [] ∨ s.events.head? = some .engine

/-- A reset is next in the interleaving (R195). -/
def State.resets (s : State) : Prop := s.events.head? = some .reset ∨ s.events.head? = some .powerOn

/-- A CMD write of w that is accepted is next in the interleaving (R24). -/
def State.acceptsCommand (s : State) (w : Word) : Prop := s.events.head? = some (.write 0x04 .word w) ∧ s.status.busy = false

/-- The end of a run (R208): the host has issued its last access and no command is in flight. -/
abbrev State.Finished (s : State) : Prop := s.events = [] ∧ s.status.busy = false

end Sys2Proof.Machine
end

