-- ==== Sys2Proof/WellFormed.lean ====
section
/-! DEFINITION. Well-formed commands, command words and parameters. A command has no operand (R81), so every `Instr` is well
formed; what can be ill formed is the word that should name one (R80, R85) and the pair of parameters (R5, R6). -/

namespace Sys2Proof

/-- Every command is well formed: it carries no immediate and no register field (R81). -/
def Instr.wf : Instr → Bool
  | .nop => true
  | .pack => true
  | .encode => true
  | .decode => true
  | .unpack => true

/-- RSVD, bits 31:4, is 0 (R80). -/
def wordRsvdOk (w : Word) : Bool := rsvdField w == 0

/-- OP, bits 3:0, is one of the five values of R83. -/
def wordOpOk (w : Word) : Bool := decide ((opField w).toNat ≤ 4)

/-- A command word that is not ILLEGAL (R85). -/
def wordWf (w : Word) : Bool := wordRsvdOk w && wordOpOk w

/-- The parameters meet R5 and R6. -/
def Params.wf (p : Params) : Bool := decide p.Legal

end Sys2Proof
end

