-- ==== Sys2Proof/Certificates/Slice0/Obligations.lean ====
section
/-! DEFINITION. The statements for the provers, each with the rule of the spec it formalises. A next state is written as an
equation t = (s with the fields named), so that every field not named is stated unchanged: registers, STATUS fields, buffers,
engine state and the model's own fields alike. -/

open Sys2Proof Sys2Proof.Machine

/-! ## Command words -/

/-- Sanity: the five words of R83, and four words of R156 and 95_test_vectors CT3 to CT6 that name no command. -/
def Obligations.CommandWordsDecodeAsTabled : Prop :=
  decode 0x00000000 = .ok .nop ∧ decode 0x00000001 = .ok .pack ∧ decode 0x00000002 = .ok .encode ∧
  decode 0x00000003 = .ok .decode ∧ decode 0x00000004 = .ok .unpack ∧
  decode 0x00000005 = .error .reservedOp ∧ decode 0x0000000F = .error .reservedOp ∧
  decode 0x00000012 = .error .reservedBits ∧ decode 0x80000001 = .error .reservedBits

/-- R84: decoding is total, by bits [31:4] and then bits [3:0]; and what the engine decodes is OPL, the word latched at the
accepted CMD write. -/
def Obligations.DecodingIsTotalByFields : Prop :=
  (∀ w : Word,
    (w.toNat / 16 ≠ 0 → ∃ r, decode w = .error r) ∧
    (w.toNat = 0 → decode w = .ok .nop) ∧ (w.toNat = 1 → decode w = .ok .pack) ∧
    (w.toNat = 2 → decode w = .ok .encode) ∧ (w.toNat = 3 → decode w = .ok .decode) ∧
    (w.toNat = 4 → decode w = .ok .unpack) ∧
    (5 ≤ w.toNat → w.toNat ≤ 15 → ∃ r, decode w = .error r)) ∧
  (∀ s : State, s.phase = .run →
    (∀ i, decode s.opl = .ok i → engineTurn s = exec i s) ∧
    (∀ r, decode s.opl = .error r → ∃ t, engineTurn s = .next t ∧ t.status.result = 5)) ∧
  (∀ (s : State) (w : Word), s.status.busy = false → ∃ t, memWrite 0x04 .word w s = .next t ∧ t.opl = w ∧ t.phase = .run)

/-- R83, R84, R85: the words that decode to a command are exactly its encoding, so every bit of a word counts. -/
def Obligations.DecodeInvertsEncodeExactly : Prop :=
  ∀ (w : Word) (i : Instr), decode w = .ok i ↔ w = encode i

/-! ## Steps -/

/-- The engine's turn runs the command OPL decodes to, or completes an ILLEGAL word (R45, R84, R85, R209), by itself or as the next
event; an idle engine has no step (R189); a read, a write, a reset or a power-on is performed off the list (R67, R195). The event
list is the model's: log entry 2. -/
def Obligations.StepRunsDecodedCommand : Prop :=
  ∀ s : State,
    (∀ i, s.phase = .run → decode s.opl = .ok i →
      (s.events = [] → step s = exec i s) ∧
      (∀ rest, s.events = .engine :: rest → step s = exec i { s with events := rest })) ∧
    (∀ r, s.phase = .run → decode s.opl = .error r →
      (s.events = [] → step s = .next (completeIllegal s)) ∧
      (∀ rest, s.events = .engine :: rest → step s = .next (completeIllegal { s with events := rest }))) ∧
    (s.events = [] → step s = engineTurn s) ∧ (∀ rest, s.events = .engine :: rest → step s = engineTurn { s with events := rest }) ∧
    (s.phase = .idle →
      (s.events = [] → step s = .next s) ∧ (∀ rest, s.events = .engine :: rest → step s = .next { s with events := rest })) ∧
    (∀ rest a n, s.events = .read a n :: rest → step s = memRead a n { s with events := rest }) ∧
    (∀ rest a n v, s.events = .write a n v :: rest → step s = memWrite a n v { s with events := rest }) ∧
    (∀ rest, s.events = .reset :: rest →
      step s = perform .reset { s with events := rest } ∧ step s = .next (State.warmReset { s with events := rest })) ∧
    (∀ rest, s.events = .powerOn :: rest →
      step s = perform .powerOn { s with events := rest } ∧ step s = .next (State.powerOnReset { s with events := rest }))

/-- R24: a CMD write while BUSY = 0 latches the word into OPL and starts the command (R209 names the fields), which the engine
decodes from OPL; while BUSY = 1 it is dropped; a read returns 0 and has no effect but the data returned. -/
def Obligations.CmdWriteStartsOneCommand : Prop :=
  ∀ (s : State) (w : Word),
    (s.status.busy = false → memWrite 0x04 .word w s =
      .next { s with status := { s.status with busy := true, done := false }, phase := .run, pos := 0, opl := w }) ∧
    (s.status.busy = false → ∀ i t, decode w = .ok i → memWrite 0x04 .word w s = .next t → engineTurn t = exec i t) ∧
    (s.status.busy = true → memWrite 0x04 .word w s = .next { s with status := { s.status with busyErr := true } }) ∧
    memRead 0x04 .word s = .next { s with reads := 0 :: s.reads }

/-- R155: NOP, as a command and as the host runs it: only STATUS (and the engine's PHASE, POS, OPL) is written, RESULT becomes 0,
BUSY_ERR is kept. -/
def Obligations.NopOnlyCompletes : Prop :=
  encode .nop = 0x00000000 ∧
  (∀ s : State, exec .nop s = .next { s with
    status := { busy := false, done := true, result := 0, busyErr := s.status.busyErr }, phase := .idle }) ∧
  (∀ s : State, s.status.busy = false →
    ∃ t u, memWrite 0x04 .word 0 s = .next t ∧ engineTurn t = .next u ∧
      u.status.toWord = (s.status.toWord &&& 0x100) ||| 0x2 ∧
      u = { s with status := u.status, phase := .idle, pos := 0, opl := 0 })

/-- R156, R173: an ILLEGAL word is accepted and completes with RESULT 5; nothing else changes but the engine's PHASE, POS, OPL. -/
def Obligations.IllegalWordCompletesWithCodeFive : Prop :=
  ∀ (s : State) (w : Word), s.status.busy = false → (∀ i, decode w ≠ .ok i) →
    ∃ t, memWrite 0x04 .word w s = .next t ∧ t.status.busy = true ∧ t.status.done = false ∧ engineTurn t = .next { s with
      status := { busy := false, done := true, result := 5, busyErr := s.status.busyErr }
      phase := .idle, pos := 0, opl := w }

/-- R13, R27, R206: every command, in every state, completes: BUSY 0, DONE 1, PHASE IDLE, RESULT a code it can raise (R170), with
BUSY_ERR, OPL, WIDTH, HEIGHT, CHANNELS and everything outside the engine as they were. -/
def Obligations.EveryCommandCompletes : Prop :=
  ∀ (i : Instr) (s : State), ∃ t, exec i s = .next t ∧
    t.status = { busy := false, done := true, result := t.status.result, busyErr := s.status.busyErr } ∧ t.phase = .idle ∧
    (t.status.result = 0 ∨ (i = .encode ∧ t.status.result = 1) ∨ (i = .decode ∧ t.status.result = 2) ∨
      ((i = .encode ∨ i = .decode) ∧ (t.status.result = 3 ∨ t.status.result = 4))) ∧
    t.opl = s.opl ∧ t.width = s.width ∧ t.height = s.height ∧ t.channels = s.channels ∧ t.params = s.params ∧
    t.powerOns = s.powerOns ∧ t.draws = s.draws ∧ t.events = s.events ∧ t.reads = s.reads

/-- R206, R208: when no event is left, a running command completes in the next step, and the run is then finished. -/
def Obligations.RunningCommandFinishes : Prop :=
  ∀ s : State, s.events = [] → s.phase = .run →
    ∃ t, step s = .next t ∧ t.phase = .idle ∧ t.status.done = true ∧ t.Finished ∧ step t = .next t

/-- No step refuses; the only fault is a bus error, of a host access (R63, R175). -/
def Obligations.OnlyHostAccessesFault : Prop :=
  ∀ s : State,
    (∀ r, step s ≠ .refused r) ∧
    (∀ f, step s = .fault f → ∃ a, f = .busError a ∧
      ((∃ n, s.events.head? = some (.read a n)) ∨ ∃ n v, s.events.head? = some (.write a n v)))

/-! ## Registers and the bus -/

/-- R52: what a read of each register returns, busy or not, and that it has no other effect. -/
def Obligations.RegisterReadsReturnTheirValues : Prop :=
  ∀ s : State,
    memRead 0x00 .word s = .next { s with reads := 0x53544547 :: s.reads } ∧
    memRead 0x04 .word s = .next { s with reads := 0 :: s.reads } ∧
    memRead 0x08 .word s = .next { s with reads := s.status.toWord :: s.reads } ∧
    memRead 0x0C .word s = .next { s with reads := s.width :: s.reads } ∧
    memRead 0x10 .word s = .next { s with reads := s.height :: s.reads } ∧
    memRead 0x14 .word s = .next { s with reads := s.channels :: s.reads } ∧
    memRead 0x18 .word s = .next { s with reads := s.bitlen :: s.reads } ∧
    memRead 0x1C .word s = .next { s with reads := s.bytelen :: s.reads } ∧
    memRead 0x20 .word s = .next { s with reads := BitVec.ofInt 32 (3 * s.width.toNat * s.height.toNat - 1 : Int) :: s.reads } ∧
    memRead 0x24 .word s = .next { s with reads := s.reqBits :: s.reads } ∧
    memRead 0x28 .word s = .next { s with reads := s.availBits :: s.reads }

/-- R25: the bits of the STATUS word, the reserved ones 0; and a host write to STATUS, busy or not, changes only BUSY_ERR. -/
def Obligations.StatusWordHasItsFields : Prop :=
  ∀ s : State,
    (∃ x, memRead 0x08 .word s = .next { s with reads := x :: s.reads } ∧
      x.getLsbD 0 = s.status.busy ∧ x.getLsbD 1 = s.status.done ∧ x.extractLsb' 4 4 = s.status.result ∧
      x.getLsbD 8 = s.status.busyErr ∧ x.extractLsb' 2 2 = 0 ∧ x.extractLsb' 9 23 = 0) ∧
    (∀ v : Word, memWrite 0x08 .word v s =
      .next { s with status := { s.status with busyErr := if v.getLsbD 8 = true then false else s.status.busyErr } })

/-- R31: CAPACITY is 3·WIDTH·HEIGHT − 1 modulo 2^32 with the product exact: the exact number on a grid that R177 admits, all ones
for an empty grid. -/
def Obligations.CapacityReadsExactly : Prop :=
  ∀ s : State, ∃ x : Word, memRead 0x20 .word s = .next { s with reads := x :: s.reads } ∧
    (s.width.toNat * s.height.toNat = 0 → x = 0xFFFFFFFF) ∧
    x.toNat = (3 * s.width.toNat * s.height.toNat + (2 ^ 32 - 1)) % 2 ^ 32 ∧
    (s.params.Legal → 1 ≤ s.width.toNat * s.height.toNat → 3 * s.width.toNat * s.height.toNat ≤ s.params.maxChan →
      x.toNat + 1 = 3 * s.width.toNat * s.height.toNat)

/-- R53: what a write of each register does while BUSY = 0 (CMD as R24 says), and that the busy rule drops the six writable ones
while BUSY = 1. The STATUS write is in StatusWordHasItsFields' form here too. -/
def Obligations.RegisterWritesFollowTheMap : Prop :=
  ∀ (s : State) (v : Word),
    (s.status.busy = false →
      memWrite 0x04 .word v s =
        .next { s with status := { s.status with busy := true, done := false }, phase := .run, pos := 0, opl := v } ∧
      memWrite 0x0C .word v s = .next { s with width := v } ∧
      memWrite 0x10 .word v s = .next { s with height := v } ∧
      memWrite 0x14 .word v s = .next { s with channels := v } ∧
      memWrite 0x18 .word v s = .next (if v.toNat ≤ 8 * s.params.maxPay then { s with bitlen := v } else s) ∧
      memWrite 0x1C .word v s = .next (if v.toNat ≤ s.params.maxPay then { s with bytelen := v } else s)) ∧
    (s.status.busy = true → ∀ a : Word, a = 0x04 ∨ a = 0x0C ∨ a = 0x10 ∨ a = 0x14 ∨ a = 0x18 ∨ a = 0x1C →
      memWrite a .word v s = .next { s with status := { s.status with busyErr := true } }) ∧
    memWrite 0x08 .word v s =
      .next { s with status := { s.status with busyErr := if v.getLsbD 8 = true then false else s.status.busyErr } } ∧
    (∀ a : Word, a = 0x00 ∨ a = 0x20 ∨ a = 0x24 ∨ a = 0x28 → memWrite a .word v s = .next s)

/-- R37: writes to ID, CAPACITY, REQ_BITS and AVAIL_BITS and to the reserved bits of STATUS are ignored, busy or not, and the
reserved bits read 0. -/
def Obligations.ReadOnlyWritesAreIgnored : Prop :=
  ∀ s : State,
    (∀ a v : Word, a = 0x00 ∨ a = 0x20 ∨ a = 0x24 ∨ a = 0x28 → memWrite a .word v s = .next s) ∧
    (∀ v u : Word, v &&& 0x1F3 = u &&& 0x1F3 → memWrite 0x08 .word v s = memWrite 0x08 .word u s) ∧
    (∃ x, memRead 0x08 .word s = .next { s with reads := x :: s.reads } ∧ x &&& 0xFFFFFE0C = 0)

/-- R51, R57, R62, R63: an access that the map admits is performed; any other is a bus error at its address, whether the block is
busy or not (a fault holds no state, so nothing is changed: log entry 8). -/
def Obligations.BusErrorsAreExactlyTheUnmapped : Prop :=
  ∀ (s : State) (a v : Word) (n : Size),
    (MapAdmits s.params a.toNat n → (∃ t, memRead a n s = .next t) ∧ ∃ t, memWrite a n v s = .next t) ∧
    (¬ MapAdmits s.params a.toNat n →
      memRead a n s = .fault (.busError a) ∧ memWrite a n v s = .fault (.busError a))

/-- R58 to R61, for reads: an admitted window read while BUSY = 0 returns its entries little-endian, a BITS lane zero-extended, and
has no other effect. -/
def Obligations.WindowReadIsLittleEndian : Prop :=
  ∀ (s : State) (a : Word) (n : Size) (b : Buffer) (base len : Nat), s.params.Legal → s.status.busy = false →
    WindowOf s.params b base len → base ≤ a.toNat → a.toNat + n.bytes ≤ base + len → a.toNat % n.bytes = 0 →
    ∃ x : Word, memRead a n s = .next { s with reads := x :: s.reads } ∧
      x.toNat = ∑ j ∈ Finset.range n.bytes, s.entryValue b (a.toNat - base + j) * 256 ^ j

/-- R58 to R61, for writes: an admitted window write while BUSY = 0 stores byte lane j in the entry at i + j (BITS: its bit 0) and
changes no other entry of any buffer, and no register. -/
def Obligations.WindowWriteStoresItsLanes : Prop :=
  ∀ (s : State) (a v : Word) (n : Size) (b : Buffer) (base len : Nat), s.params.Legal → s.status.busy = false →
    WindowOf s.params b base len → base ≤ a.toNat → a.toNat + n.bytes ≤ base + len → a.toNat % n.bytes = 0 →
    ∃ t, memWrite a n v s = .next t ∧ t = { s with chan := t.chan, bits := t.bits, pay := t.pay } ∧
      (∀ i, t.chanAt i = if b = .chan ∧ a.toNat - base ≤ i ∧ i < a.toNat - base + n.bytes
        then BitVec.ofNat 8 (v.toNat / 256 ^ (i - (a.toNat - base))) else s.chanAt i) ∧
      (∀ i, t.bitAt i = if b = .bits ∧ a.toNat - base ≤ i ∧ i < a.toNat - base + n.bytes
        then BitVec.ofNat 1 (v.toNat / 256 ^ (i - (a.toNat - base))) else s.bitAt i) ∧
      (∀ i, t.payAt i = if b = .pay ∧ a.toNat - base ≤ i ∧ i < a.toNat - base + n.bytes
        then BitVec.ofNat 8 (v.toNat / 256 ^ (i - (a.toNat - base))) else s.payAt i)

/-- R202: while BUSY = 1 a write to one of the six registers or to any admitted part of a window is dropped and sets BUSY_ERR,
nothing else changes; writes to STATUS and the read-only registers behave as when idle. -/
def Obligations.BusyWritesAreDropped : Prop :=
  ∀ (s : State) (v : Word), s.status.busy = true →
    (∀ a : Word, a = 0x04 ∨ a = 0x0C ∨ a = 0x10 ∨ a = 0x14 ∨ a = 0x18 ∨ a = 0x1C →
      memWrite a .word v s = .next { s with status := { s.status with busyErr := true } }) ∧
    (∀ (a : Word) (n : Size), MapAdmits s.params a.toNat n → 0x2C ≤ a.toNat →
      memWrite a n v s = .next { s with status := { s.status with busyErr := true } }) ∧
    memWrite 0x08 .word v s =
      .next { s with status := { s.status with busyErr := if v.getLsbD 8 = true then false else s.status.busyErr } } ∧
    (∀ a : Word, a = 0x00 ∨ a = 0x20 ∨ a = 0x24 ∨ a = 0x28 → memWrite a .word v s = .next s)

/-- R203: while BUSY = 1 a window read returns some value of its width and changes nothing but the data returned and the number of
draws made; the value is one draw of Config, on which nothing here rests (log entry 4). -/
def Obligations.BusyWindowReadsAreDraws : Prop :=
  ∀ (s : State) (a : Word) (n : Size), s.status.busy = true → MapAdmits s.params a.toNat n → 0x2C ≤ a.toNat →
    ∃ x : Word, x.toNat < 256 ^ n.bytes ∧
      memRead a n s = .next { s with reads := x :: s.reads, draws := s.draws + 1 }

/-- R29: a write of 1 to STATUS bit 8 clears BUSY_ERR, of 0 leaves it; and in any step BUSY_ERR is set only by a write while BUSY =
1, and cleared only by such a STATUS write or by reset. -/
def Obligations.BusyErrIsStickyUntilCleared : Prop :=
  (∀ (s : State) (v : Word),
    (v.getLsbD 8 = true → memWrite 0x08 .word v s = .next { s with status := { s.status with busyErr := false } }) ∧
    (v.getLsbD 8 = false → memWrite 0x08 .word v s = .next s)) ∧
  (∀ s t : State, step s = .next t →
    (s.status.busyErr = false → t.status.busyErr = true →
      s.status.busy = true ∧ ∃ a n v, s.events.head? = some (.write a n v)) ∧
    (s.status.busyErr = true → t.status.busyErr = false →
      s.resets ∨ ∃ v : Word, s.events.head? = some (.write 0x08 .word v) ∧ v.getLsbD 8 = true))

/-! ## Commands -/

/-- R101: PACK. Bit 8k + j of the sequence is bit 7 − j of byte k, entries from 8·BYTELEN on keep their values, BITLEN is
8·BYTELEN, RESULT is 0, and nothing else changes. What POS is left at is not said: no host sees it (log entry 9). -/
def Obligations.PackSerializesThePayload : Prop :=
  ∀ s : State, s.params.Legal → s.bytelen.toNat ≤ s.params.maxPay →
    ∃ t, exec .pack s = .next t ∧
      (∀ k j, k < s.bytelen.toNat → j < 8 → (t.bitAt (8 * k + j)).toNat = (s.payAt k).toNat / 2 ^ (7 - j) % 2) ∧
      (∀ i, 8 * s.bytelen.toNat ≤ i → t.bitAt i = s.bitAt i) ∧
      t.bitlen.toNat = 8 * s.bytelen.toNat ∧
      t = { s with
        bits := t.bits, bitlen := t.bitlen, pos := t.pos, phase := .idle
        status := { busy := false, done := true, result := 0, busyErr := s.status.busyErr } }

/-- R115: the whole of Adjust, row by row, with the ranges the rule derives from it. -/
def Obligations.AdjustFollowsTheCaseTable : Prop :=
  ∀ v : Byte,
    (v = 0 → adjust v 1 = 2 ∧ adjust v 0 = 1) ∧
    (v.toNat % 2 = 1 → v.toNat ≤ 127 → adjust v 1 = v + 1 ∧ adjust v 0 = v) ∧
    (v = 128 → adjust v 1 = 128 ∧ adjust v 0 = 129) ∧
    (v.toNat % 2 = 1 → 129 ≤ v.toNat → adjust v 1 = v - 1 ∧ adjust v 0 = v) ∧
    (v.toNat % 2 = 0 → 2 ≤ v.toNat → v.toNat ≤ 126 → adjust v 1 = v ∧ adjust v 0 = v + 1) ∧
    (v.toNat % 2 = 0 → 130 ≤ v.toNat → adjust v 1 = v ∧ adjust v 0 = v - 1) ∧
    (adjust v 1).toNat % 2 = 0 ∧ 2 ≤ (adjust v 1).toNat ∧ (adjust v 1).toNat ≤ 254 ∧
    (adjust v 0).toNat % 2 = 1 ∧ 1 ≤ (adjust v 0).toNat ∧
    (∀ b : Bit, (v.toNat : Int) - (adjust v b).toNat ≤ 1 ∧
      ((adjust v b).toNat : Int) - v.toNat ≤ if v = 0 then 2 else 1) ∧
    adjust 255 1 = 254

/-- R122: no adjustment under- or overflows: the result is the exact integer, a decrement gives at least 128, an increment at most
129. -/
def Obligations.AdjustNeverWraps : Prop :=
  ∀ (v : Byte) (b : Bit), ∃ v1 : Nat, v1 = (if v = 0 then 1 else v.toNat) ∧
    ((adjust v b).toNat = v1 ∨
      (128 < v1 ∧ (adjust v b).toNat = v1 - 1 ∧ 128 ≤ (adjust v b).toNat) ∨
      (v1 ≤ 128 ∧ (adjust v b).toNat = v1 + 1 ∧ (adjust v b).toNat ≤ 129))

/-- R111 when every check passes, with R116, R117, R120: each data position is adjusted, the sentinel follows the last one, later
positions keep their values, RESULT is 0 and nothing else changes (but POS). -/
def Obligations.EncodeWritesParitiesAndSentinel : Prop :=
  ∀ s : State, s.channels = 3 → 3 * s.width.toNat * s.height.toNat ≤ s.params.maxChan →
    s.bitlen.toNat + 1 ≤ 3 * s.width.toNat * s.height.toNat →
    ∃ t, exec .encode s = .next t ∧
      (∀ i, i < s.bitlen.toNat → t.chanAt i = adjust (s.chanAt i) (s.bitAt i)) ∧
      t.chanAt s.bitlen.toNat = 0 ∧
      (∀ i, s.bitlen.toNat < i → t.chanAt i = s.chanAt i) ∧
      t = { s with
        chan := t.chan, pos := t.pos, phase := .idle
        status := { busy := false, done := true, result := 0, busyErr := s.status.busyErr } }

/-- R123: after a successful ENCODE every data position is nonzero with the parity of its bit, and the first 0 is at BITLEN. -/
def Obligations.EncodedParitiesAndFirstZero : Prop :=
  ∀ s t : State, exec .encode s = .next t → t.status.result = 0 →
    (∀ i, i < s.bitlen.toNat → 1 ≤ (t.chanAt i).toNat ∧ ((t.chanAt i).toNat % 2 = 0 ↔ s.bitAt i = 1)) ∧
    t.chanAt s.bitlen.toNat = 0

/-- R176, R177: ENCODE and DECODE refuse a grid first for its channel count, then for its size, and write nothing but STATUS (and
PHASE); PACK and UNPACK do not check. -/
def Obligations.GridIsRefusedBeforeAnyWrite : Prop :=
  ∀ s : State,
    (∀ i, i = .encode ∨ i = .decode →
      (s.channels ≠ 3 → exec i s = .next { s with
        phase := .idle, status := { busy := false, done := true, result := 3, busyErr := s.status.busyErr } }) ∧
      (s.channels = 3 → s.params.maxChan < 3 * s.width.toNat * s.height.toNat → exec i s = .next { s with
        phase := .idle, status := { busy := false, done := true, result := 4, busyErr := s.status.busyErr } })) ∧
    (∀ i, i = .pack ∨ i = .unpack → ∃ t, exec i s = .next t ∧ t.status.result = 0)

/-- R171, R118: on an admitted grid a BITLEN above the exact capacity completes with code 1, REQ_BITS and AVAIL_BITS hold the report,
and no CHAN entry is written. -/
def Obligations.CapacityExceededReportsOnly : Prop :=
  ∀ s : State, s.channels = 3 → 3 * s.width.toNat * s.height.toNat ≤ s.params.maxChan →
    ((3 * s.width.toNat * s.height.toNat : Nat) : Int) - 1 < (s.bitlen.toNat : Int) →
    exec .encode s = .next { s with
      reqBits := s.bitlen
      availBits := BitVec.ofInt 32 (((3 * s.width.toNat * s.height.toNat : Nat) : Int) - 1)
      phase := .idle
      status := { busy := false, done := true, result := 1, busyErr := s.status.busyErr } }

/-- R124: the capacity boundary: BITLEN = N − 1 succeeds with the sentinel in the last position, BITLEN = N is reported as N against
N − 1, and an empty grid reports 0xFFFF_FFFF; the two failures change no buffer and no other register. -/
def Obligations.CapacityBoundaryIsExact : Prop :=
  ∀ s : State, s.channels = 3 → 3 * s.width.toNat * s.height.toNat ≤ s.params.maxChan →
    (s.bitlen.toNat + 1 = 3 * s.width.toNat * s.height.toNat →
      ∃ t, exec .encode s = .next t ∧ t.status.result = 0 ∧ t.chanAt (3 * s.width.toNat * s.height.toNat - 1) = 0) ∧
    (s.bitlen.toNat = 3 * s.width.toNat * s.height.toNat → 1 ≤ s.bitlen.toNat →
      ∃ t, exec .encode s = .next t ∧ t.status.result = 1 ∧ t.reqBits = s.bitlen ∧
        t.availBits.toNat + 1 = 3 * s.width.toNat * s.height.toNat ∧
        t = { s with reqBits := t.reqBits, availBits := t.availBits, phase := .idle, status := t.status }) ∧
    (s.width.toNat * s.height.toNat = 0 →
      ∃ t, exec .encode s = .next t ∧ t.status.result = 1 ∧ t.reqBits = s.bitlen ∧ t.availBits = 0xFFFFFFFF ∧
        t = { s with reqBits := t.reqBits, availBits := t.availBits, phase := .idle, status := t.status })

/-- R131 to R133, R135: DECODE of an admitted grid whose first 0 is at p reads the p parities before it, sets BITLEN to p with RESULT
0, and changes nothing else (but POS). -/
def Obligations.DecodeStopsAtTheSentinel : Prop :=
  ∀ (s : State) (p : Nat), s.params.Legal → s.channels = 3 → 3 * s.width.toNat * s.height.toNat ≤ s.params.maxChan →
    p < 3 * s.width.toNat * s.height.toNat → s.chanAt p = 0 → (∀ q, q < p → s.chanAt q ≠ 0) →
    ∃ t, exec .decode s = .next t ∧
      (∀ q, q < p → t.bitAt q = if (s.chanAt q).toNat % 2 = 0 then 1 else 0) ∧
      (∀ q, p ≤ q → t.bitAt q = s.bitAt q) ∧ t.bitlen.toNat = p ∧
      t = { s with
        bits := t.bits, bitlen := t.bitlen, pos := t.pos, phase := .idle
        status := { busy := false, done := true, result := 0, busyErr := s.status.busyErr } }

/-- R131, R134, R172: DECODE of an admitted grid with no 0 keeps the N bits read, sets BITLEN to N with RESULT 2, and changes nothing
else (but POS). N = 0 is the empty grid. -/
def Obligations.DecodeWithoutSentinelIsMalformed : Prop :=
  ∀ s : State, s.params.Legal → s.channels = 3 → 3 * s.width.toNat * s.height.toNat ≤ s.params.maxChan →
    (∀ q, q < 3 * s.width.toNat * s.height.toNat → s.chanAt q ≠ 0) →
    ∃ t, exec .decode s = .next t ∧
      (∀ q, q < 3 * s.width.toNat * s.height.toNat → t.bitAt q = if (s.chanAt q).toNat % 2 = 0 then 1 else 0) ∧
      (∀ q, 3 * s.width.toNat * s.height.toNat ≤ q → t.bitAt q = s.bitAt q) ∧
      t.bitlen.toNat = 3 * s.width.toNat * s.height.toNat ∧
      t = { s with
        bits := t.bits, bitlen := t.bitlen, pos := t.pos, phase := .idle
        status := { busy := false, done := true, result := 2, busyErr := s.status.busyErr } }

/-- R146, R147: UNPACK. Byte k is the number of bits 8k to 8k + 7, the first the most significant; bytes from BITLEN div 8 on keep
their values, BYTELEN is BITLEN div 8, RESULT is 0, and nothing else changes (but POS). -/
def Obligations.UnpackAssemblesWholeBytes : Prop :=
  ∀ s : State, ∃ t, exec .unpack s = .next t ∧
    (∀ k, k < s.bitlen.toNat / 8 →
      (t.payAt k).toNat = ∑ j ∈ Finset.range 8, (s.bitAt (8 * k + j)).toNat * 2 ^ (7 - j)) ∧
    (∀ k, s.bitlen.toNat / 8 ≤ k → t.payAt k = s.payAt k) ∧
    t.bytelen.toNat = s.bitlen.toNat / 8 ∧
    t = { s with
      pay := t.pay, bytelen := t.bytelen, pos := t.pos, phase := .idle
      status := { busy := false, done := true, result := 0, busyErr := s.status.busyErr } }

/-- R119: when ENCODE completes with any nonzero RESULT no CHAN entry has changed. And a command that completes with a nonzero code
other than 2 changes no buffer and no register other than STATUS, and the report registers only with code 1. -/
def Obligations.RefusedCommandsWriteNothing : Prop :=
  ∀ (i : Instr) (s t : State), exec i s = .next t → t.status.result ≠ 0 →
    (i = .encode → t.chan = s.chan ∧ ∀ q, t.chanAt q = s.chanAt q) ∧
    (t.status.result ≠ 2 →
      t = { s with status := t.status, phase := .idle, reqBits := t.reqBits, availBits := t.availBits } ∧
      (t.status.result ≠ 1 → t.reqBits = s.reqBits ∧ t.availBits = s.availBits))

/-- R101, R146: PACK and UNPACK ignore WIDTH, HEIGHT and CHANNELS: runs that differ only there give the same bits and bytes. -/
def Obligations.PackAndUnpackIgnoreTheGrid : Prop :=
  ∀ (s : State) (w h c : Word),
    (∃ t u, exec .pack s = .next t ∧ exec .pack { s with width := w, height := h, channels := c } = .next u ∧
      u.bitlen = t.bitlen ∧ u.status = t.status ∧ ∀ i, u.bitAt i = t.bitAt i) ∧
    (∃ t u, exec .unpack s = .next t ∧ exec .unpack { s with width := w, height := h, channels := c } = .next u ∧
      u.bytelen = t.bytelen ∧ u.status = t.status ∧ ∀ k, u.payAt k = t.payAt k)

/-- R133, R134: DECODE interprets nothing after the first 0 and nothing beyond the stream: two images that agree up to the sentinel,
or on the whole stream, decode alike. -/
def Obligations.DecodeReadsOnlyUpToTheSentinel : Prop :=
  ∀ (s v : State) (p : Nat), v.width = s.width → v.height = s.height → v.channels = s.channels → v.params = s.params →
    (p = 3 * s.width.toNat * s.height.toNat ∨ (p ≤ 3 * s.width.toNat * s.height.toNat ∧ 1 ≤ p ∧ s.chanAt (p - 1) = 0)) →
    (∀ q, q < p → v.chanAt q = s.chanAt q) → v.bitlen = s.bitlen → (∀ i, v.bitAt i = s.bitAt i) →
    ∃ t u, exec .decode s = .next t ∧ exec .decode v = .next u ∧
      u.status.result = t.status.result ∧ u.bitlen = t.bitlen ∧ ∀ i, u.bitAt i = t.bitAt i

/-- R149: PACK then UNPACK restores the payload, from any state that still holds PACK's bits and BITLEN. -/
def Obligations.UnpackUndoesPack : Prop :=
  ∀ s : State, s.params.Legal → s.bytelen.toNat ≤ s.params.maxPay →
    ∃ t, exec .pack s = .next t ∧
      ∀ v : State, v.bitlen = t.bitlen → (∀ i, i < t.bitlen.toNat → v.bitAt i = t.bitAt i) →
        ∃ u, exec .unpack v = .next u ∧ u.bytelen = s.bytelen ∧ ∀ k, k < s.bytelen.toNat → u.payAt k = s.payAt k

/-- R138: after a successful ENCODE of L bits, DECODE gives back exactly those L bits, from any state that still holds the image and
its grid. -/
def Obligations.DecodeUndoesEncode : Prop :=
  ∀ s : State, s.channels = 3 → 3 * s.width.toNat * s.height.toNat ≤ s.params.maxChan →
    s.bitlen.toNat + 1 ≤ 3 * s.width.toNat * s.height.toNat →
    ∃ t, exec .encode s = .next t ∧
      ∀ v : State, v.width = s.width → v.height = s.height → v.channels = s.channels → v.params = s.params →
        (∀ i, i < 3 * s.width.toNat * s.height.toNat → v.chanAt i = t.chanAt i) →
        ∃ u, exec .decode v = .next u ∧ u.status.result = 0 ∧ u.bitlen = s.bitlen ∧
          ∀ i, i < s.bitlen.toNat → u.bitAt i = s.bitAt i

/-- The source's round trip (95_test_vectors E6): a payload that fits is packed and encoded, and any block that is given the image
and its grid decodes and unpacks exactly that payload. -/
def Obligations.PayloadSurvivesTheRoundTrip : Prop :=
  ∀ s : State, s.params.Legal → s.bytelen.toNat ≤ s.params.maxPay → s.channels = 3 →
    3 * s.width.toNat * s.height.toNat ≤ s.params.maxChan →
    8 * s.bytelen.toNat + 1 ≤ 3 * s.width.toNat * s.height.toNat →
    ∃ t1 t2, exec .pack s = .next t1 ∧ exec .encode t1 = .next t2 ∧ t2.status.result = 0 ∧
      ∀ v : State, v.width = s.width → v.height = s.height → v.channels = s.channels → v.params = s.params →
        (∀ i, i < 3 * s.width.toNat * s.height.toNat → v.chanAt i = t2.chanAt i) →
        ∃ u1 u2, exec .decode v = .next u1 ∧ exec .unpack u1 = .next u2 ∧ u1.status.result = 0 ∧ u2.status.result = 0 ∧
          u2.bytelen = s.bytelen ∧ ∀ k, k < s.bytelen.toNat → u2.payAt k = s.payAt k

/-- R209 with R102, R121, R137, R148, R206: the completion step of a command is what its beats do one after the other, from the start
of the command, within the number of beats R206 gives. -/
def Obligations.CompletionStepIsItsBeats : Prop :=
  ∀ (i : Instr) (s : State), s.phase = .run → s.pos = 0 → exec i s = .next (execByBeats i s)

/-! ## The whole machine -/

/-- Every step keeps a legal state legal (Safety.lean's State.Inv): R33, R34, R44, R45, R27, R170, the buffers' bounds and form. -/
def Obligations.StepKeepsTheStateLegal : Prop :=
  ∀ s t : State, s.Inv → step s = .next t → t.Inv

/-- The state right after reset is legal. -/
def Obligations.ResetStateIsLegal : Prop := State.reset.Inv

/-- No step changes the parameters (R5, R6; the field is the model's, log entry 1), and only a power-on renews the buffers' draws
(R198; log entry 3). -/
def Obligations.ParametersNeverChange : Prop :=
  ∀ s t : State, step s = .next t →
    t.params = s.params ∧ (t.powerOns ≠ s.powerOns → s.events.head? = some .powerOn)

/-- R195: a reset at power-on or at any later time leaves the registers and the engine at their stated values in one step, and so is
the state the machine starts in. -/
def Obligations.ResetLeavesTheStatedValues : Prop :=
  (∀ (s : State) (e : Event), e = .reset ∨ e = .powerOn →
    ∃ t, perform e s = .next t ∧ t.status.toWord = 0 ∧ t.width = 0 ∧ t.height = 0 ∧ t.channels = 0 ∧ t.bitlen = 0 ∧ t.bytelen = 0 ∧
      t.reqBits = 0 ∧ t.availBits = 0 ∧ t.phase = .idle ∧ t.pos = 0 ∧ t.opl = 0 ∧
      memRead 0x00 .word t = .next { t with reads := 0x53544547 :: t.reads } ∧
      memRead 0x04 .word t = .next { t with reads := 0 :: t.reads } ∧
      memRead 0x20 .word t = .next { t with reads := 0xFFFFFFFF :: t.reads }) ∧
  State.reset.status.toWord = 0 ∧ State.reset.width = 0 ∧ State.reset.height = 0 ∧ State.reset.channels = 0 ∧
  State.reset.bitlen = 0 ∧ State.reset.bytelen = 0 ∧ State.reset.reqBits = 0 ∧ State.reset.availBits = 0 ∧
  State.reset.phase = .idle ∧ State.reset.pos = 0 ∧ State.reset.opl = 0 ∧
  memRead 0x20 .word State.reset = .next { State.reset with reads := [0xFFFFFFFF] }

/-- R196, R198: a reset that is not a power-on keeps every buffer entry, but for the outputs of a command it abandons: BITS of PACK
and DECODE, CHAN up to the sentinel of ENCODE, PAY of UNPACK. -/
def Obligations.ResetKeepsWhatNoCommandWrites : Prop :=
  ∀ (s t : State) (rest : List Event), s.events = .reset :: rest → step s = .next t →
    (s.phase = .idle → t.chan = s.chan ∧ t.bits = s.bits ∧ t.pay = s.pay) ∧
    (s.phase = .run →
      (decode s.opl ≠ .ok .encode → t.chan = s.chan) ∧
      (decode s.opl ≠ .ok .pack → decode s.opl ≠ .ok .decode → t.bits = s.bits) ∧
      (decode s.opl ≠ .ok .unpack → t.pay = s.pay) ∧
      (∀ i, decode s.opl = .ok .encode → s.bitlen.toNat < i → t.chanAt i = s.chanAt i) ∧
      (∀ i, decode s.opl = .ok .pack → 8 * s.bytelen.toNat ≤ i → t.bitAt i = s.bitAt i) ∧
      (∀ i p, decode s.opl = .ok .decode → p ≤ i → s.chanAt p = 0 ∨ 3 * s.width.toNat * s.height.toNat ≤ p →
        t.bitAt i = s.bitAt i) ∧
      (∀ k, decode s.opl = .ok .unpack → s.bitlen.toNat / 8 ≤ k → t.payAt k = s.payAt k)) ∧
    t.powerOns = s.powerOns ∧ t.params = s.params ∧ t.events = rest ∧ t.reads = s.reads

/-- R26, R27: BUSY is set only by an accepted CMD write and cleared only by a completion step or reset; DONE is set only by a
completion step and cleared only by an accepted CMD write or reset. -/
def Obligations.BusyAndDoneChangeOnlyAsStated : Prop :=
  ∀ s t : State, step s = .next t →
    (s.status.busy = false → t.status.busy = true → ∃ w, s.acceptsCommand w) ∧
    (s.status.busy = true → t.status.busy = false → (s.engineMoves ∧ s.phase = .run) ∨ s.resets) ∧
    (s.status.done = false → t.status.done = true → s.engineMoves ∧ s.phase = .run) ∧
    (s.status.done = true → t.status.done = false → (∃ w, s.acceptsCommand w) ∨ s.resets)

/-- R28: RESULT is written only by a completion step, or cleared by reset. -/
def Obligations.ResultChangesOnlyAtCompletion : Prop :=
  ∀ s t : State, step s = .next t → t.status.result ≠ s.status.result →
    (s.engineMoves ∧ s.phase = .run ∧ t.status.done = true ∧ t.status.result.toNat ≤ 5) ∨ (s.resets ∧ t.status.result = 0)

/-- R71: the command word is sampled once, at the accepted CMD write: no other step but reset changes OPL. -/
def Obligations.CommandWordIsSampledOnce : Prop :=
  ∀ s t : State, step s = .next t → t.opl ≠ s.opl → s.acceptsCommand t.opl ∨ (s.resets ∧ t.opl = 0)

/-- R35, R36: REQ_BITS and AVAIL_BITS are written only when ENCODE completes with CAPACITY_EXCEEDED, or by reset. -/
def Obligations.ReportIsWrittenOnlyByCapacityExceeded : Prop :=
  ∀ s t : State, step s = .next t → t.reqBits ≠ s.reqBits ∨ t.availBits ≠ s.availBits →
    (s.engineMoves ∧ s.phase = .run ∧ decode s.opl = .ok .encode ∧ t.status.result = 1 ∧ t.reqBits = s.bitlen ∧
      t.availBits = BitVec.ofInt 32 (((3 * s.width.toNat * s.height.toNat : Nat) : Int) - 1)) ∨
    (s.resets ∧ t.reqBits = 0 ∧ t.availBits = 0)

/-- R202, R203, R209: while a command runs no host access changes a register, a buffer or the engine: only BUSY_ERR, the data
returned and the model's own fields. -/
def Obligations.HostCannotDisturbARunningCommand : Prop :=
  ∀ (s t : State) (rest : List Event), s.status.busy = true →
    ((∃ a n, s.events = .read a n :: rest) ∨ ∃ a n v, s.events = .write a n v :: rest) → step s = .next t →
    t = { s with
      events := rest, reads := t.reads, draws := t.draws, status := { s.status with busyErr := t.status.busyErr } }

/-- R64: a host read changes nothing but the data returned and the number of draws made; a second read of a register, or of a window
while BUSY = 0, returns the same. -/
def Obligations.ReadsHaveNoSideEffect : Prop :=
  ∀ (s t : State) (a : Word) (n : Size), memRead a n s = .next t →
    t = { s with reads := t.reads, draws := t.draws } ∧ (∃ x, t.reads = x :: s.reads ∧
      (s.status.busy = false → memRead a n t = .next { t with reads := x :: t.reads }))
end

