-- ==== Sys2Proof/Laws/State.lean ====
section
/-! SUPPORT. Beside State: what each named update leaves in each field, one lemma per field, true by rfl. -/

namespace Sys2Proof.Machine

section
variable (s : State)

/-! ### `CHAN[i] <- v` -/

@[simp] theorem State.setChan_status (i : Nat) (v : Byte) : (s.setChan i v).status = s.status := rfl
@[simp] theorem State.setChan_width (i : Nat) (v : Byte) : (s.setChan i v).width = s.width := rfl
@[simp] theorem State.setChan_height (i : Nat) (v : Byte) : (s.setChan i v).height = s.height := rfl
@[simp] theorem State.setChan_channels (i : Nat) (v : Byte) : (s.setChan i v).channels = s.channels := rfl
@[simp] theorem State.setChan_bitlen (i : Nat) (v : Byte) : (s.setChan i v).bitlen = s.bitlen := rfl
@[simp] theorem State.setChan_bytelen (i : Nat) (v : Byte) : (s.setChan i v).bytelen = s.bytelen := rfl
@[simp] theorem State.setChan_reqBits (i : Nat) (v : Byte) : (s.setChan i v).reqBits = s.reqBits := rfl
@[simp] theorem State.setChan_availBits (i : Nat) (v : Byte) : (s.setChan i v).availBits = s.availBits := rfl
@[simp] theorem State.setChan_chan (i : Nat) (v : Byte) : (s.setChan i v).chan = Memory.write s.chan i v := rfl
@[simp] theorem State.setChan_bits (i : Nat) (v : Byte) : (s.setChan i v).bits = s.bits := rfl
@[simp] theorem State.setChan_pay (i : Nat) (v : Byte) : (s.setChan i v).pay = s.pay := rfl
@[simp] theorem State.setChan_phase (i : Nat) (v : Byte) : (s.setChan i v).phase = s.phase := rfl
@[simp] theorem State.setChan_pos (i : Nat) (v : Byte) : (s.setChan i v).pos = s.pos := rfl
@[simp] theorem State.setChan_opl (i : Nat) (v : Byte) : (s.setChan i v).opl = s.opl := rfl
@[simp] theorem State.setChan_params (i : Nat) (v : Byte) : (s.setChan i v).params = s.params := rfl
@[simp] theorem State.setChan_powerOns (i : Nat) (v : Byte) : (s.setChan i v).powerOns = s.powerOns := rfl
@[simp] theorem State.setChan_draws (i : Nat) (v : Byte) : (s.setChan i v).draws = s.draws := rfl
@[simp] theorem State.setChan_events (i : Nat) (v : Byte) : (s.setChan i v).events = s.events := rfl
@[simp] theorem State.setChan_reads (i : Nat) (v : Byte) : (s.setChan i v).reads = s.reads := rfl

/-! ### `BITS[i] <- b` -/

@[simp] theorem State.setBit_status (i : Nat) (b : Bit) : (s.setBit i b).status = s.status := rfl
@[simp] theorem State.setBit_width (i : Nat) (b : Bit) : (s.setBit i b).width = s.width := rfl
@[simp] theorem State.setBit_height (i : Nat) (b : Bit) : (s.setBit i b).height = s.height := rfl
@[simp] theorem State.setBit_channels (i : Nat) (b : Bit) : (s.setBit i b).channels = s.channels := rfl
@[simp] theorem State.setBit_bitlen (i : Nat) (b : Bit) : (s.setBit i b).bitlen = s.bitlen := rfl
@[simp] theorem State.setBit_bytelen (i : Nat) (b : Bit) : (s.setBit i b).bytelen = s.bytelen := rfl
@[simp] theorem State.setBit_reqBits (i : Nat) (b : Bit) : (s.setBit i b).reqBits = s.reqBits := rfl
@[simp] theorem State.setBit_availBits (i : Nat) (b : Bit) : (s.setBit i b).availBits = s.availBits := rfl
@[simp] theorem State.setBit_chan (i : Nat) (b : Bit) : (s.setBit i b).chan = s.chan := rfl
@[simp] theorem State.setBit_bits (i : Nat) (b : Bit) : (s.setBit i b).bits = Memory.write s.bits i b := rfl
@[simp] theorem State.setBit_pay (i : Nat) (b : Bit) : (s.setBit i b).pay = s.pay := rfl
@[simp] theorem State.setBit_phase (i : Nat) (b : Bit) : (s.setBit i b).phase = s.phase := rfl
@[simp] theorem State.setBit_pos (i : Nat) (b : Bit) : (s.setBit i b).pos = s.pos := rfl
@[simp] theorem State.setBit_opl (i : Nat) (b : Bit) : (s.setBit i b).opl = s.opl := rfl
@[simp] theorem State.setBit_params (i : Nat) (b : Bit) : (s.setBit i b).params = s.params := rfl
@[simp] theorem State.setBit_powerOns (i : Nat) (b : Bit) : (s.setBit i b).powerOns = s.powerOns := rfl
@[simp] theorem State.setBit_draws (i : Nat) (b : Bit) : (s.setBit i b).draws = s.draws := rfl
@[simp] theorem State.setBit_events (i : Nat) (b : Bit) : (s.setBit i b).events = s.events := rfl
@[simp] theorem State.setBit_reads (i : Nat) (b : Bit) : (s.setBit i b).reads = s.reads := rfl

/-! ### `PAY[k] <- v` -/

@[simp] theorem State.setPay_status (k : Nat) (v : Byte) : (s.setPay k v).status = s.status := rfl
@[simp] theorem State.setPay_width (k : Nat) (v : Byte) : (s.setPay k v).width = s.width := rfl
@[simp] theorem State.setPay_height (k : Nat) (v : Byte) : (s.setPay k v).height = s.height := rfl
@[simp] theorem State.setPay_channels (k : Nat) (v : Byte) : (s.setPay k v).channels = s.channels := rfl
@[simp] theorem State.setPay_bitlen (k : Nat) (v : Byte) : (s.setPay k v).bitlen = s.bitlen := rfl
@[simp] theorem State.setPay_bytelen (k : Nat) (v : Byte) : (s.setPay k v).bytelen = s.bytelen := rfl
@[simp] theorem State.setPay_reqBits (k : Nat) (v : Byte) : (s.setPay k v).reqBits = s.reqBits := rfl
@[simp] theorem State.setPay_availBits (k : Nat) (v : Byte) : (s.setPay k v).availBits = s.availBits := rfl
@[simp] theorem State.setPay_chan (k : Nat) (v : Byte) : (s.setPay k v).chan = s.chan := rfl
@[simp] theorem State.setPay_bits (k : Nat) (v : Byte) : (s.setPay k v).bits = s.bits := rfl
@[simp] theorem State.setPay_pay (k : Nat) (v : Byte) : (s.setPay k v).pay = Memory.write s.pay k v := rfl
@[simp] theorem State.setPay_phase (k : Nat) (v : Byte) : (s.setPay k v).phase = s.phase := rfl
@[simp] theorem State.setPay_pos (k : Nat) (v : Byte) : (s.setPay k v).pos = s.pos := rfl
@[simp] theorem State.setPay_opl (k : Nat) (v : Byte) : (s.setPay k v).opl = s.opl := rfl
@[simp] theorem State.setPay_params (k : Nat) (v : Byte) : (s.setPay k v).params = s.params := rfl
@[simp] theorem State.setPay_powerOns (k : Nat) (v : Byte) : (s.setPay k v).powerOns = s.powerOns := rfl
@[simp] theorem State.setPay_draws (k : Nat) (v : Byte) : (s.setPay k v).draws = s.draws := rfl
@[simp] theorem State.setPay_events (k : Nat) (v : Byte) : (s.setPay k v).events = s.events := rfl
@[simp] theorem State.setPay_reads (k : Nat) (v : Byte) : (s.setPay k v).reads = s.reads := rfl

/-! ### `POS <- n` -/

@[simp] theorem State.setPos_status (n : Nat) : (s.setPos n).status = s.status := rfl
@[simp] theorem State.setPos_width (n : Nat) : (s.setPos n).width = s.width := rfl
@[simp] theorem State.setPos_height (n : Nat) : (s.setPos n).height = s.height := rfl
@[simp] theorem State.setPos_channels (n : Nat) : (s.setPos n).channels = s.channels := rfl
@[simp] theorem State.setPos_bitlen (n : Nat) : (s.setPos n).bitlen = s.bitlen := rfl
@[simp] theorem State.setPos_bytelen (n : Nat) : (s.setPos n).bytelen = s.bytelen := rfl
@[simp] theorem State.setPos_reqBits (n : Nat) : (s.setPos n).reqBits = s.reqBits := rfl
@[simp] theorem State.setPos_availBits (n : Nat) : (s.setPos n).availBits = s.availBits := rfl
@[simp] theorem State.setPos_chan (n : Nat) : (s.setPos n).chan = s.chan := rfl
@[simp] theorem State.setPos_bits (n : Nat) : (s.setPos n).bits = s.bits := rfl
@[simp] theorem State.setPos_pay (n : Nat) : (s.setPos n).pay = s.pay := rfl
@[simp] theorem State.setPos_phase (n : Nat) : (s.setPos n).phase = s.phase := rfl
@[simp] theorem State.setPos_pos (n : Nat) : (s.setPos n).pos = n := rfl
@[simp] theorem State.setPos_opl (n : Nat) : (s.setPos n).opl = s.opl := rfl
@[simp] theorem State.setPos_params (n : Nat) : (s.setPos n).params = s.params := rfl
@[simp] theorem State.setPos_powerOns (n : Nat) : (s.setPos n).powerOns = s.powerOns := rfl
@[simp] theorem State.setPos_draws (n : Nat) : (s.setPos n).draws = s.draws := rfl
@[simp] theorem State.setPos_events (n : Nat) : (s.setPos n).events = s.events := rfl
@[simp] theorem State.setPos_reads (n : Nat) : (s.setPos n).reads = s.reads := rfl

/-! ### `BITLEN <- n` -/

@[simp] theorem State.setBitlen_status (n : Nat) : (s.setBitlen n).status = s.status := rfl
@[simp] theorem State.setBitlen_width (n : Nat) : (s.setBitlen n).width = s.width := rfl
@[simp] theorem State.setBitlen_height (n : Nat) : (s.setBitlen n).height = s.height := rfl
@[simp] theorem State.setBitlen_channels (n : Nat) : (s.setBitlen n).channels = s.channels := rfl
@[simp] theorem State.setBitlen_bitlen (n : Nat) : (s.setBitlen n).bitlen = BitVec.ofNat 32 n := rfl
@[simp] theorem State.setBitlen_bytelen (n : Nat) : (s.setBitlen n).bytelen = s.bytelen := rfl
@[simp] theorem State.setBitlen_reqBits (n : Nat) : (s.setBitlen n).reqBits = s.reqBits := rfl
@[simp] theorem State.setBitlen_availBits (n : Nat) : (s.setBitlen n).availBits = s.availBits := rfl
@[simp] theorem State.setBitlen_chan (n : Nat) : (s.setBitlen n).chan = s.chan := rfl
@[simp] theorem State.setBitlen_bits (n : Nat) : (s.setBitlen n).bits = s.bits := rfl
@[simp] theorem State.setBitlen_pay (n : Nat) : (s.setBitlen n).pay = s.pay := rfl
@[simp] theorem State.setBitlen_phase (n : Nat) : (s.setBitlen n).phase = s.phase := rfl
@[simp] theorem State.setBitlen_pos (n : Nat) : (s.setBitlen n).pos = s.pos := rfl
@[simp] theorem State.setBitlen_opl (n : Nat) : (s.setBitlen n).opl = s.opl := rfl
@[simp] theorem State.setBitlen_params (n : Nat) : (s.setBitlen n).params = s.params := rfl
@[simp] theorem State.setBitlen_powerOns (n : Nat) : (s.setBitlen n).powerOns = s.powerOns := rfl
@[simp] theorem State.setBitlen_draws (n : Nat) : (s.setBitlen n).draws = s.draws := rfl
@[simp] theorem State.setBitlen_events (n : Nat) : (s.setBitlen n).events = s.events := rfl
@[simp] theorem State.setBitlen_reads (n : Nat) : (s.setBitlen n).reads = s.reads := rfl

/-! ### `BYTELEN <- n` -/

@[simp] theorem State.setBytelen_status (n : Nat) : (s.setBytelen n).status = s.status := rfl
@[simp] theorem State.setBytelen_width (n : Nat) : (s.setBytelen n).width = s.width := rfl
@[simp] theorem State.setBytelen_height (n : Nat) : (s.setBytelen n).height = s.height := rfl
@[simp] theorem State.setBytelen_channels (n : Nat) : (s.setBytelen n).channels = s.channels := rfl
@[simp] theorem State.setBytelen_bitlen (n : Nat) : (s.setBytelen n).bitlen = s.bitlen := rfl
@[simp] theorem State.setBytelen_bytelen (n : Nat) : (s.setBytelen n).bytelen = BitVec.ofNat 32 n := rfl
@[simp] theorem State.setBytelen_reqBits (n : Nat) : (s.setBytelen n).reqBits = s.reqBits := rfl
@[simp] theorem State.setBytelen_availBits (n : Nat) : (s.setBytelen n).availBits = s.availBits := rfl
@[simp] theorem State.setBytelen_chan (n : Nat) : (s.setBytelen n).chan = s.chan := rfl
@[simp] theorem State.setBytelen_bits (n : Nat) : (s.setBytelen n).bits = s.bits := rfl
@[simp] theorem State.setBytelen_pay (n : Nat) : (s.setBytelen n).pay = s.pay := rfl
@[simp] theorem State.setBytelen_phase (n : Nat) : (s.setBytelen n).phase = s.phase := rfl
@[simp] theorem State.setBytelen_pos (n : Nat) : (s.setBytelen n).pos = s.pos := rfl
@[simp] theorem State.setBytelen_opl (n : Nat) : (s.setBytelen n).opl = s.opl := rfl
@[simp] theorem State.setBytelen_params (n : Nat) : (s.setBytelen n).params = s.params := rfl
@[simp] theorem State.setBytelen_powerOns (n : Nat) : (s.setBytelen n).powerOns = s.powerOns := rfl
@[simp] theorem State.setBytelen_draws (n : Nat) : (s.setBytelen n).draws = s.draws := rfl
@[simp] theorem State.setBytelen_events (n : Nat) : (s.setBytelen n).events = s.events := rfl
@[simp] theorem State.setBytelen_reads (n : Nat) : (s.setBytelen n).reads = s.reads := rfl

/-! ### the capacity report -/

@[simp] theorem State.setReport_status (r a : Word) : (s.setReport r a).status = s.status := rfl
@[simp] theorem State.setReport_width (r a : Word) : (s.setReport r a).width = s.width := rfl
@[simp] theorem State.setReport_height (r a : Word) : (s.setReport r a).height = s.height := rfl
@[simp] theorem State.setReport_channels (r a : Word) : (s.setReport r a).channels = s.channels := rfl
@[simp] theorem State.setReport_bitlen (r a : Word) : (s.setReport r a).bitlen = s.bitlen := rfl
@[simp] theorem State.setReport_bytelen (r a : Word) : (s.setReport r a).bytelen = s.bytelen := rfl
@[simp] theorem State.setReport_reqBits (r a : Word) : (s.setReport r a).reqBits = r := rfl
@[simp] theorem State.setReport_availBits (r a : Word) : (s.setReport r a).availBits = a := rfl
@[simp] theorem State.setReport_chan (r a : Word) : (s.setReport r a).chan = s.chan := rfl
@[simp] theorem State.setReport_bits (r a : Word) : (s.setReport r a).bits = s.bits := rfl
@[simp] theorem State.setReport_pay (r a : Word) : (s.setReport r a).pay = s.pay := rfl
@[simp] theorem State.setReport_phase (r a : Word) : (s.setReport r a).phase = s.phase := rfl
@[simp] theorem State.setReport_pos (r a : Word) : (s.setReport r a).pos = s.pos := rfl
@[simp] theorem State.setReport_opl (r a : Word) : (s.setReport r a).opl = s.opl := rfl
@[simp] theorem State.setReport_params (r a : Word) : (s.setReport r a).params = s.params := rfl
@[simp] theorem State.setReport_powerOns (r a : Word) : (s.setReport r a).powerOns = s.powerOns := rfl
@[simp] theorem State.setReport_draws (r a : Word) : (s.setReport r a).draws = s.draws := rfl
@[simp] theorem State.setReport_events (r a : Word) : (s.setReport r a).events = s.events := rfl
@[simp] theorem State.setReport_reads (r a : Word) : (s.setReport r a).reads = s.reads := rfl

/-! ### an accepted CMD write -/

@[simp] theorem State.accept_status (w : Word) : (s.accept w).status = { s.status with busy := true, done := false } := rfl
@[simp] theorem State.accept_width (w : Word) : (s.accept w).width = s.width := rfl
@[simp] theorem State.accept_height (w : Word) : (s.accept w).height = s.height := rfl
@[simp] theorem State.accept_channels (w : Word) : (s.accept w).channels = s.channels := rfl
@[simp] theorem State.accept_bitlen (w : Word) : (s.accept w).bitlen = s.bitlen := rfl
@[simp] theorem State.accept_bytelen (w : Word) : (s.accept w).bytelen = s.bytelen := rfl
@[simp] theorem State.accept_reqBits (w : Word) : (s.accept w).reqBits = s.reqBits := rfl
@[simp] theorem State.accept_availBits (w : Word) : (s.accept w).availBits = s.availBits := rfl
@[simp] theorem State.accept_chan (w : Word) : (s.accept w).chan = s.chan := rfl
@[simp] theorem State.accept_bits (w : Word) : (s.accept w).bits = s.bits := rfl
@[simp] theorem State.accept_pay (w : Word) : (s.accept w).pay = s.pay := rfl
@[simp] theorem State.accept_phase (w : Word) : (s.accept w).phase = .run := rfl
@[simp] theorem State.accept_pos (w : Word) : (s.accept w).pos = 0 := rfl
@[simp] theorem State.accept_opl (w : Word) : (s.accept w).opl = w := rfl
@[simp] theorem State.accept_params (w : Word) : (s.accept w).params = s.params := rfl
@[simp] theorem State.accept_powerOns (w : Word) : (s.accept w).powerOns = s.powerOns := rfl
@[simp] theorem State.accept_draws (w : Word) : (s.accept w).draws = s.draws := rfl
@[simp] theorem State.accept_events (w : Word) : (s.accept w).events = s.events := rfl
@[simp] theorem State.accept_reads (w : Word) : (s.accept w).reads = s.reads := rfl

/-! ### `complete(code)` -/

@[simp] theorem State.complete_status (c : Code) : (s.complete c).status = { s.status with busy := false, done := true, result := c.toBits } := rfl
@[simp] theorem State.complete_width (c : Code) : (s.complete c).width = s.width := rfl
@[simp] theorem State.complete_height (c : Code) : (s.complete c).height = s.height := rfl
@[simp] theorem State.complete_channels (c : Code) : (s.complete c).channels = s.channels := rfl
@[simp] theorem State.complete_bitlen (c : Code) : (s.complete c).bitlen = s.bitlen := rfl
@[simp] theorem State.complete_bytelen (c : Code) : (s.complete c).bytelen = s.bytelen := rfl
@[simp] theorem State.complete_reqBits (c : Code) : (s.complete c).reqBits = s.reqBits := rfl
@[simp] theorem State.complete_availBits (c : Code) : (s.complete c).availBits = s.availBits := rfl
@[simp] theorem State.complete_chan (c : Code) : (s.complete c).chan = s.chan := rfl
@[simp] theorem State.complete_bits (c : Code) : (s.complete c).bits = s.bits := rfl
@[simp] theorem State.complete_pay (c : Code) : (s.complete c).pay = s.pay := rfl
@[simp] theorem State.complete_phase (c : Code) : (s.complete c).phase = .idle := rfl
@[simp] theorem State.complete_pos (c : Code) : (s.complete c).pos = s.pos := rfl
@[simp] theorem State.complete_opl (c : Code) : (s.complete c).opl = s.opl := rfl
@[simp] theorem State.complete_params (c : Code) : (s.complete c).params = s.params := rfl
@[simp] theorem State.complete_powerOns (c : Code) : (s.complete c).powerOns = s.powerOns := rfl
@[simp] theorem State.complete_draws (c : Code) : (s.complete c).draws = s.draws := rfl
@[simp] theorem State.complete_events (c : Code) : (s.complete c).events = s.events := rfl
@[simp] theorem State.complete_reads (c : Code) : (s.complete c).reads = s.reads := rfl

/-! ### the data of a read -/

@[simp] theorem State.respond_status (v : Word) : (s.respond v).status = s.status := rfl
@[simp] theorem State.respond_width (v : Word) : (s.respond v).width = s.width := rfl
@[simp] theorem State.respond_height (v : Word) : (s.respond v).height = s.height := rfl
@[simp] theorem State.respond_channels (v : Word) : (s.respond v).channels = s.channels := rfl
@[simp] theorem State.respond_bitlen (v : Word) : (s.respond v).bitlen = s.bitlen := rfl
@[simp] theorem State.respond_bytelen (v : Word) : (s.respond v).bytelen = s.bytelen := rfl
@[simp] theorem State.respond_reqBits (v : Word) : (s.respond v).reqBits = s.reqBits := rfl
@[simp] theorem State.respond_availBits (v : Word) : (s.respond v).availBits = s.availBits := rfl
@[simp] theorem State.respond_chan (v : Word) : (s.respond v).chan = s.chan := rfl
@[simp] theorem State.respond_bits (v : Word) : (s.respond v).bits = s.bits := rfl
@[simp] theorem State.respond_pay (v : Word) : (s.respond v).pay = s.pay := rfl
@[simp] theorem State.respond_phase (v : Word) : (s.respond v).phase = s.phase := rfl
@[simp] theorem State.respond_pos (v : Word) : (s.respond v).pos = s.pos := rfl
@[simp] theorem State.respond_opl (v : Word) : (s.respond v).opl = s.opl := rfl
@[simp] theorem State.respond_params (v : Word) : (s.respond v).params = s.params := rfl
@[simp] theorem State.respond_powerOns (v : Word) : (s.respond v).powerOns = s.powerOns := rfl
@[simp] theorem State.respond_draws (v : Word) : (s.respond v).draws = s.draws := rfl
@[simp] theorem State.respond_events (v : Word) : (s.respond v).events = s.events := rfl
@[simp] theorem State.respond_reads (v : Word) : (s.respond v).reads = v :: s.reads := rfl

/-! ### a draw made -/

@[simp] theorem State.nextDraw_status : (s.nextDraw).status = s.status := rfl
@[simp] theorem State.nextDraw_width : (s.nextDraw).width = s.width := rfl
@[simp] theorem State.nextDraw_height : (s.nextDraw).height = s.height := rfl
@[simp] theorem State.nextDraw_channels : (s.nextDraw).channels = s.channels := rfl
@[simp] theorem State.nextDraw_bitlen : (s.nextDraw).bitlen = s.bitlen := rfl
@[simp] theorem State.nextDraw_bytelen : (s.nextDraw).bytelen = s.bytelen := rfl
@[simp] theorem State.nextDraw_reqBits : (s.nextDraw).reqBits = s.reqBits := rfl
@[simp] theorem State.nextDraw_availBits : (s.nextDraw).availBits = s.availBits := rfl
@[simp] theorem State.nextDraw_chan : (s.nextDraw).chan = s.chan := rfl
@[simp] theorem State.nextDraw_bits : (s.nextDraw).bits = s.bits := rfl
@[simp] theorem State.nextDraw_pay : (s.nextDraw).pay = s.pay := rfl
@[simp] theorem State.nextDraw_phase : (s.nextDraw).phase = s.phase := rfl
@[simp] theorem State.nextDraw_pos : (s.nextDraw).pos = s.pos := rfl
@[simp] theorem State.nextDraw_opl : (s.nextDraw).opl = s.opl := rfl
@[simp] theorem State.nextDraw_params : (s.nextDraw).params = s.params := rfl
@[simp] theorem State.nextDraw_powerOns : (s.nextDraw).powerOns = s.powerOns := rfl
@[simp] theorem State.nextDraw_draws : (s.nextDraw).draws = s.draws + 1 := rfl
@[simp] theorem State.nextDraw_events : (s.nextDraw).events = s.events := rfl
@[simp] theorem State.nextDraw_reads : (s.nextDraw).reads = s.reads := rfl

/-! ### a dropped write -/

@[simp] theorem State.dropWrite_status : (s.dropWrite).status = { s.status with busyErr := true } := rfl
@[simp] theorem State.dropWrite_width : (s.dropWrite).width = s.width := rfl
@[simp] theorem State.dropWrite_height : (s.dropWrite).height = s.height := rfl
@[simp] theorem State.dropWrite_channels : (s.dropWrite).channels = s.channels := rfl
@[simp] theorem State.dropWrite_bitlen : (s.dropWrite).bitlen = s.bitlen := rfl
@[simp] theorem State.dropWrite_bytelen : (s.dropWrite).bytelen = s.bytelen := rfl
@[simp] theorem State.dropWrite_reqBits : (s.dropWrite).reqBits = s.reqBits := rfl
@[simp] theorem State.dropWrite_availBits : (s.dropWrite).availBits = s.availBits := rfl
@[simp] theorem State.dropWrite_chan : (s.dropWrite).chan = s.chan := rfl
@[simp] theorem State.dropWrite_bits : (s.dropWrite).bits = s.bits := rfl
@[simp] theorem State.dropWrite_pay : (s.dropWrite).pay = s.pay := rfl
@[simp] theorem State.dropWrite_phase : (s.dropWrite).phase = s.phase := rfl
@[simp] theorem State.dropWrite_pos : (s.dropWrite).pos = s.pos := rfl
@[simp] theorem State.dropWrite_opl : (s.dropWrite).opl = s.opl := rfl
@[simp] theorem State.dropWrite_params : (s.dropWrite).params = s.params := rfl
@[simp] theorem State.dropWrite_powerOns : (s.dropWrite).powerOns = s.powerOns := rfl
@[simp] theorem State.dropWrite_draws : (s.dropWrite).draws = s.draws := rfl
@[simp] theorem State.dropWrite_events : (s.dropWrite).events = s.events := rfl
@[simp] theorem State.dropWrite_reads : (s.dropWrite).reads = s.reads := rfl

/-! ### a host write to STATUS -/

@[simp] theorem State.writeStatus_status (w : Word) : (s.writeStatus w).status = { s.status with busyErr := s.status.busyErr && !w.getLsbD 8 } := rfl
@[simp] theorem State.writeStatus_width (w : Word) : (s.writeStatus w).width = s.width := rfl
@[simp] theorem State.writeStatus_height (w : Word) : (s.writeStatus w).height = s.height := rfl
@[simp] theorem State.writeStatus_channels (w : Word) : (s.writeStatus w).channels = s.channels := rfl
@[simp] theorem State.writeStatus_bitlen (w : Word) : (s.writeStatus w).bitlen = s.bitlen := rfl
@[simp] theorem State.writeStatus_bytelen (w : Word) : (s.writeStatus w).bytelen = s.bytelen := rfl
@[simp] theorem State.writeStatus_reqBits (w : Word) : (s.writeStatus w).reqBits = s.reqBits := rfl
@[simp] theorem State.writeStatus_availBits (w : Word) : (s.writeStatus w).availBits = s.availBits := rfl
@[simp] theorem State.writeStatus_chan (w : Word) : (s.writeStatus w).chan = s.chan := rfl
@[simp] theorem State.writeStatus_bits (w : Word) : (s.writeStatus w).bits = s.bits := rfl
@[simp] theorem State.writeStatus_pay (w : Word) : (s.writeStatus w).pay = s.pay := rfl
@[simp] theorem State.writeStatus_phase (w : Word) : (s.writeStatus w).phase = s.phase := rfl
@[simp] theorem State.writeStatus_pos (w : Word) : (s.writeStatus w).pos = s.pos := rfl
@[simp] theorem State.writeStatus_opl (w : Word) : (s.writeStatus w).opl = s.opl := rfl
@[simp] theorem State.writeStatus_params (w : Word) : (s.writeStatus w).params = s.params := rfl
@[simp] theorem State.writeStatus_powerOns (w : Word) : (s.writeStatus w).powerOns = s.powerOns := rfl
@[simp] theorem State.writeStatus_draws (w : Word) : (s.writeStatus w).draws = s.draws := rfl
@[simp] theorem State.writeStatus_events (w : Word) : (s.writeStatus w).events = s.events := rfl
@[simp] theorem State.writeStatus_reads (w : Word) : (s.writeStatus w).reads = s.reads := rfl

/-! ### the registers as reset leaves them -/

@[simp] theorem State.clearRegs_status : (s.clearRegs).status = { busy := false, done := false, result := 0, busyErr := false } := rfl
@[simp] theorem State.clearRegs_width : (s.clearRegs).width = 0 := rfl
@[simp] theorem State.clearRegs_height : (s.clearRegs).height = 0 := rfl
@[simp] theorem State.clearRegs_channels : (s.clearRegs).channels = 0 := rfl
@[simp] theorem State.clearRegs_bitlen : (s.clearRegs).bitlen = 0 := rfl
@[simp] theorem State.clearRegs_bytelen : (s.clearRegs).bytelen = 0 := rfl
@[simp] theorem State.clearRegs_reqBits : (s.clearRegs).reqBits = 0 := rfl
@[simp] theorem State.clearRegs_availBits : (s.clearRegs).availBits = 0 := rfl
@[simp] theorem State.clearRegs_chan : (s.clearRegs).chan = s.chan := rfl
@[simp] theorem State.clearRegs_bits : (s.clearRegs).bits = s.bits := rfl
@[simp] theorem State.clearRegs_pay : (s.clearRegs).pay = s.pay := rfl
@[simp] theorem State.clearRegs_phase : (s.clearRegs).phase = .idle := rfl
@[simp] theorem State.clearRegs_pos : (s.clearRegs).pos = 0 := rfl
@[simp] theorem State.clearRegs_opl : (s.clearRegs).opl = 0 := rfl
@[simp] theorem State.clearRegs_params : (s.clearRegs).params = s.params := rfl
@[simp] theorem State.clearRegs_powerOns : (s.clearRegs).powerOns = s.powerOns := rfl
@[simp] theorem State.clearRegs_draws : (s.clearRegs).draws = s.draws := rfl
@[simp] theorem State.clearRegs_events : (s.clearRegs).events = s.events := rfl
@[simp] theorem State.clearRegs_reads : (s.clearRegs).reads = s.reads := rfl

/-! ### the buffers as power-on leaves them -/

@[simp] theorem State.clearBuffers_status : (s.clearBuffers).status = s.status := rfl
@[simp] theorem State.clearBuffers_width : (s.clearBuffers).width = s.width := rfl
@[simp] theorem State.clearBuffers_height : (s.clearBuffers).height = s.height := rfl
@[simp] theorem State.clearBuffers_channels : (s.clearBuffers).channels = s.channels := rfl
@[simp] theorem State.clearBuffers_bitlen : (s.clearBuffers).bitlen = s.bitlen := rfl
@[simp] theorem State.clearBuffers_bytelen : (s.clearBuffers).bytelen = s.bytelen := rfl
@[simp] theorem State.clearBuffers_reqBits : (s.clearBuffers).reqBits = s.reqBits := rfl
@[simp] theorem State.clearBuffers_availBits : (s.clearBuffers).availBits = s.availBits := rfl
@[simp] theorem State.clearBuffers_chan : (s.clearBuffers).chan = [] := rfl
@[simp] theorem State.clearBuffers_bits : (s.clearBuffers).bits = [] := rfl
@[simp] theorem State.clearBuffers_pay : (s.clearBuffers).pay = [] := rfl
@[simp] theorem State.clearBuffers_phase : (s.clearBuffers).phase = s.phase := rfl
@[simp] theorem State.clearBuffers_pos : (s.clearBuffers).pos = s.pos := rfl
@[simp] theorem State.clearBuffers_opl : (s.clearBuffers).opl = s.opl := rfl
@[simp] theorem State.clearBuffers_params : (s.clearBuffers).params = s.params := rfl
@[simp] theorem State.clearBuffers_powerOns : (s.clearBuffers).powerOns = s.powerOns + 1 := rfl
@[simp] theorem State.clearBuffers_draws : (s.clearBuffers).draws = s.draws := rfl
@[simp] theorem State.clearBuffers_events : (s.clearBuffers).events = s.events := rfl
@[simp] theorem State.clearBuffers_reads : (s.clearBuffers).reads = s.reads := rfl

end

end Sys2Proof.Machine
end

