-- ==== Sys2Proof/Laws/Memory.lean ====
section
/-! SUPPORT. The laws of one buffer's storage: read after write, and that a write keeps the canonical form and the bounds. -/

namespace Sys2Proof.Machine

section
variable {w : Nat}

@[simp] theorem Memory.lookup_nil (i : Nat) : Memory.lookup ([] : Memory w) i = none := rfl

/-- The tail of a memory in canonical form is in canonical form. -/
theorem Memory.wf_tail {a : Nat} {b : BitVec w} {m : Memory w} (h : Memory.wf ((a, b) :: m) = true) :
    Memory.wf m = true := by
  cases m with
  | nil => rfl
  | cons e m => simp only [Memory.wf, Bool.and_eq_true] at h; exact h.2

/-- A read after a write: the value written at its index, every other index as before. Holds of any list. -/
theorem Memory.lookup_write (m : Memory w) (i j : Nat) (v : BitVec w) :
    Memory.lookup (Memory.write m i v) j = if j = i then some v else Memory.lookup m j := by
  induction m with
  | nil => simp [Memory.write, Memory.lookup]
  | cons e m ih =>
    obtain ⟨a, b⟩ := e
    simp only [Memory.write]
    split
    · simp [Memory.lookup]
    · split
      · next h => subst h; simp only [Memory.lookup]; split <;> rfl
      · simp only [Memory.lookup, ih]
        split
        · next h1 h2 h3 => subst h3; simp [Ne.symm h2]
        · rfl

/-- The canonical form by head and tail: the head's index is below every other. -/
theorem Memory.wf_cons_iff (a : Nat) (b : BitVec w) (m : Memory w) :
    Memory.wf ((a, b) :: m) = true ↔ (∀ e ∈ m, a < e.1) ∧ Memory.wf m = true := by
  induction m generalizing a b with
  | nil => simp [Memory.wf]
  | cons e m ih =>
    obtain ⟨c, d⟩ := e
    simp only [Memory.wf, Bool.and_eq_true, decide_eq_true_eq, List.mem_cons, forall_eq_or_imp]
    constructor
    · rintro ⟨h1, h2⟩
      exact ⟨⟨h1, fun e he => Nat.lt_trans h1 (((ih c d).1 h2).1 e he)⟩, h2⟩
    · rintro ⟨⟨h1, -⟩, h3⟩
      exact ⟨h1, h3⟩

/-- What a write can list: the entry written, and entries that were there. -/
theorem Memory.mem_write {m : Memory w} {i : Nat} {v : BitVec w} {e : Nat × BitVec w}
    (h : e ∈ Memory.write m i v) : e = (i, v) ∨ e ∈ m := by
  induction m with
  | nil => simpa [Memory.write] using h
  | cons x m ih =>
    obtain ⟨a, b⟩ := x
    simp only [Memory.write] at h
    split at h
    · exact List.mem_cons.1 h
    · split at h
      · exact (List.mem_cons.1 h).imp_right (List.mem_cons_of_mem _)
      · rcases List.mem_cons.1 h with h | h
        · exact .inr (h ▸ List.mem_cons_self)
        · exact (ih h).imp_right (List.mem_cons_of_mem _)

/-- A write keeps the canonical form. -/
theorem Memory.wf_write {m : Memory w} (i : Nat) (v : BitVec w) (h : Memory.wf m = true) :
    Memory.wf (Memory.write m i v) = true := by
  induction m with
  | nil => rfl
  | cons x m ih =>
    obtain ⟨a, b⟩ := x
    have h' := (Memory.wf_cons_iff a b m).1 h
    simp only [Memory.write]
    split
    · next hlt =>
      refine (Memory.wf_cons_iff _ _ _).2 ⟨fun e he => ?_, h⟩
      rcases List.mem_cons.1 he with rfl | he
      · exact hlt
      · exact Nat.lt_trans hlt (h'.1 e he)
    · split
      · next _ heq => subst heq; exact (Memory.wf_cons_iff _ _ _).2 h'
      · next hlt hne =>
        refine (Memory.wf_cons_iff _ _ _).2 ⟨fun e he => ?_, ih h'.2⟩
        rcases Memory.mem_write he with rfl | he
        · simp only; omega
        · exact h'.1 e he

/-- A write inside the bound keeps every listed index inside it. -/
theorem Memory.below_write {m : Memory w} {n i : Nat} (v : BitVec w) (hi : i < n)
    (h : Memory.below n m = true) : Memory.below n (Memory.write m i v) = true := by
  simp only [Memory.below, List.all_eq_true, decide_eq_true_eq] at h ⊢
  intro e he
  rcases Memory.mem_write he with rfl | he
  · exact hi
  · exact h e he

/-- Nothing outside the bound is listed. -/
theorem Memory.lookup_of_below {m : Memory w} {n i : Nat} (h : Memory.below n m = true) (hi : n ≤ i) :
    Memory.lookup m i = none := by
  induction m with
  | nil => rfl
  | cons x m ih =>
    obtain ⟨a, b⟩ := x
    simp only [Memory.below, List.all_cons, Bool.and_eq_true, decide_eq_true_eq] at h
    simp only [Memory.lookup]
    rw [if_neg (by omega)]
    exact ih h.2

end

/-- The memory of the state right after reset is in canonical form. -/
theorem State.reset_memory_wf :
    Memory.wf State.reset.chan = true ∧ Memory.wf State.reset.bits = true ∧ Memory.wf State.reset.pay = true :=
  ⟨rfl, rfl, rfl⟩

end Sys2Proof.Machine
end

