-- ==== Sys2Proof/Laws/Ops.lean ====
section
/-! SUPPORT. What the shared operations do: the entries read after each update, the loop, and the derived operands. -/

namespace Sys2Proof.Machine

/-! ## Entries after a store to one entry -/

section
variable (s : State)

theorem State.chanAt_setChan (i j : Nat) (v : Byte) :
    (s.setChan i v).chanAt j = if j = i then v else s.chanAt j := by
  simp only [State.chanAt, State.setChan_chan, State.setChan_powerOns, Memory.lookup_write]
  split <;> rfl

theorem State.bitAt_setBit (i j : Nat) (b : Bit) :
    (s.setBit i b).bitAt j = if j = i then b else s.bitAt j := by
  simp only [State.bitAt, State.setBit_bits, State.setBit_powerOns, Memory.lookup_write]
  split <;> rfl

theorem State.payAt_setPay (k j : Nat) (v : Byte) :
    (s.setPay k v).payAt j = if j = k then v else s.payAt j := by
  simp only [State.payAt, State.setPay_pay, State.setPay_powerOns, Memory.lookup_write]
  split <;> rfl

@[simp] theorem State.chanAt_setBit (i j : Nat) (b : Bit) : (s.setBit i b).chanAt j = s.chanAt j := rfl
@[simp] theorem State.chanAt_setPay (i j : Nat) (v : Byte) : (s.setPay i v).chanAt j = s.chanAt j := rfl
@[simp] theorem State.bitAt_setChan (i j : Nat) (v : Byte) : (s.setChan i v).bitAt j = s.bitAt j := rfl
@[simp] theorem State.bitAt_setPay (i j : Nat) (v : Byte) : (s.setPay i v).bitAt j = s.bitAt j := rfl
@[simp] theorem State.payAt_setChan (i j : Nat) (v : Byte) : (s.setChan i v).payAt j = s.payAt j := rfl
@[simp] theorem State.payAt_setBit (i j : Nat) (b : Bit) : (s.setBit i b).payAt j = s.payAt j := rfl
@[simp] theorem State.payBit_setBit (i : Nat) (b : Bit) (k j : Nat) : (s.setBit i b).payBit k j = s.payBit k j := rfl
@[simp] theorem State.bitsByte_setPay (i : Nat) (v : Byte) (k : Nat) : (s.setPay i v).bitsByte k = s.bitsByte k := rfl

/-! ## Entries after an update of registers only -/

@[simp] theorem State.chanAt_setPos (n j : Nat) : (s.setPos n).chanAt j = s.chanAt j := rfl
@[simp] theorem State.bitAt_setPos (n j : Nat) : (s.setPos n).bitAt j = s.bitAt j := rfl
@[simp] theorem State.payAt_setPos (n j : Nat) : (s.setPos n).payAt j = s.payAt j := rfl
@[simp] theorem State.chanAt_setBitlen (n j : Nat) : (s.setBitlen n).chanAt j = s.chanAt j := rfl
@[simp] theorem State.bitAt_setBitlen (n j : Nat) : (s.setBitlen n).bitAt j = s.bitAt j := rfl
@[simp] theorem State.payAt_setBitlen (n j : Nat) : (s.setBitlen n).payAt j = s.payAt j := rfl
@[simp] theorem State.chanAt_setBytelen (n j : Nat) : (s.setBytelen n).chanAt j = s.chanAt j := rfl
@[simp] theorem State.bitAt_setBytelen (n j : Nat) : (s.setBytelen n).bitAt j = s.bitAt j := rfl
@[simp] theorem State.payAt_setBytelen (n j : Nat) : (s.setBytelen n).payAt j = s.payAt j := rfl
@[simp] theorem State.chanAt_complete (c : Code) (j : Nat) : (s.complete c).chanAt j = s.chanAt j := rfl
@[simp] theorem State.bitAt_complete (c : Code) (j : Nat) : (s.complete c).bitAt j = s.bitAt j := rfl
@[simp] theorem State.payAt_complete (c : Code) (j : Nat) : (s.complete c).payAt j = s.payAt j := rfl
@[simp] theorem State.chanAt_accept (w : Word) (j : Nat) : (s.accept w).chanAt j = s.chanAt j := rfl
@[simp] theorem State.bitAt_accept (w : Word) (j : Nat) : (s.accept w).bitAt j = s.bitAt j := rfl
@[simp] theorem State.payAt_accept (w : Word) (j : Nat) : (s.accept w).payAt j = s.payAt j := rfl

/-! ## Derived operands -/

@[simp] theorem State.streamLength_setChan (i : Nat) (v : Byte) : (s.setChan i v).streamLength = s.streamLength := rfl
@[simp] theorem State.streamLength_setBit (i : Nat) (b : Bit) : (s.setBit i b).streamLength = s.streamLength := rfl
@[simp] theorem State.streamLength_setPos (n : Nat) : (s.setPos n).streamLength = s.streamLength := rfl

/-- The grid passes ENCODE's and DECODE's checks exactly when CHANNELS = 3 and N ≤ MAX_CHAN (R176, R177). -/
theorem State.gridRefusal_eq_none : s.gridRefusal = none ↔ s.channels = 3 ∧ s.streamLength ≤ s.params.maxChan := by
  unfold State.gridRefusal
  split
  · simp_all
  · split
    · simp_all
    · simp_all

/-- A refused grid is refused with code 3 for its channel count, or with code 4 for its size (R176, R177, R178). -/
theorem State.gridRefusal_eq_some (c : Code) :
    s.gridRefusal = some c ↔
      (s.channels ≠ 3 ∧ c = .unsupportedPixelFormat) ∨
      (s.channels = 3 ∧ s.params.maxChan < s.streamLength ∧ c = .gridTooLarge) := by
  unfold State.gridRefusal
  split
  · simp_all [eq_comm]
  · split
    · simp_all [eq_comm]
    · simp_all

end

/-! ## The loop -/

/-- What holds before a loop and is kept by each of its turns holds after it. -/
theorem forUpTo_induct {σ : Type} (P : Nat → σ → Prop) {f : Nat → σ → σ} {s : σ} (n : Nat) (h0 : P 0 s)
    (hs : ∀ i t, i < n → P i t → P (i + 1) (f i t)) : P n (forUpTo n f s) := by
  induction n with
  | zero => exact h0
  | succ n ih => exact hs n _ (Nat.lt_succ_self n) (ih fun i t hi => hs i t (Nat.lt_succ_of_lt hi))

/-- A loop of m + n turns is a loop of m turns, then one of n. -/
theorem forUpTo_add {σ : Type} (m n : Nat) (f : Nat → σ → σ) (s : σ) :
    forUpTo (m + n) f s = forUpTo n (fun i => f (m + i)) (forUpTo m f s) := by
  induction n with
  | zero => rfl
  | succ n ih => rw [← Nat.add_assoc]; simp only [forUpTo, ih]

/-- A loop is fixed by what its turns do. -/
theorem forUpTo_congr {σ : Type} (n : Nat) {f g : Nat → σ → σ} (s : σ) (h : ∀ i t, i < n → f i t = g i t) :
    forUpTo n f s = forUpTo n g s := by
  induction n with
  | zero => rfl
  | succ n ih =>
    simp only [forUpTo]
    rw [ih fun i t hi => h i t (Nat.lt_succ_of_lt hi), h n _ (Nat.lt_succ_self n)]

end Sys2Proof.Machine
end

