-- ==== Sys2Proof/Laws/Commands.lean ====
section
/-! SUPPORT. One lemma per loop of a command, of a window write and of an abandoned command: which ONE buffer it touches, what
each entry reads afterwards, and that the stored form stays canonical and inside its bound. -/

namespace Sys2Proof.Machine

/-! ## Loops that store into one buffer -/

/-- A loop that stores g i s at BITS[at_ i] in each turn changes no field but the bits, and keeps their form. -/
theorem State.bitsLoop_form (s : State) (n : Nat) (f : Nat → State → State)
    (hf : ∀ i t, ∃ b, f i t = t.setBit i b) :
    ∃ m, forUpTo n f s = { s with bits := m } ∧ (Memory.wf s.bits = true → Memory.wf m = true) ∧
      (∀ N, n ≤ N → Memory.below N s.bits = true → Memory.below N m = true) := by
  refine forUpTo_induct (fun k (t : State) => ∃ m, t = { s with bits := m } ∧ (Memory.wf s.bits = true → Memory.wf m = true) ∧
      (∀ N, k ≤ N → Memory.below N s.bits = true → Memory.below N m = true)) n
      ⟨s.bits, rfl, id, fun _ _ h => h⟩ ?_
  rintro i t - ⟨m, rfl, h1, h2⟩
  obtain ⟨b, hb⟩ := hf i { s with bits := m }
  exact ⟨Memory.write m i b, hb, fun h => Memory.wf_write i b (h1 h),
    fun N hN h => Memory.below_write b (by omega) (h2 N (by omega) h)⟩

/-- The same for CHAN. -/
theorem State.chanLoop_form (s : State) (n : Nat) (f : Nat → State → State)
    (hf : ∀ i t, ∃ v, f i t = t.setChan i v) :
    ∃ m, forUpTo n f s = { s with chan := m } ∧ (Memory.wf s.chan = true → Memory.wf m = true) ∧
      (∀ N, n ≤ N → Memory.below N s.chan = true → Memory.below N m = true) := by
  refine forUpTo_induct (fun k (t : State) => ∃ m, t = { s with chan := m } ∧ (Memory.wf s.chan = true → Memory.wf m = true) ∧
      (∀ N, k ≤ N → Memory.below N s.chan = true → Memory.below N m = true)) n
      ⟨s.chan, rfl, id, fun _ _ h => h⟩ ?_
  rintro i t - ⟨m, rfl, h1, h2⟩
  obtain ⟨b, hb⟩ := hf i { s with chan := m }
  exact ⟨Memory.write m i b, hb, fun h => Memory.wf_write i b (h1 h),
    fun N hN h => Memory.below_write b (by omega) (h2 N (by omega) h)⟩

/-- The same for PAY. -/
theorem State.payLoop_form (s : State) (n : Nat) (f : Nat → State → State)
    (hf : ∀ i t, ∃ v, f i t = t.setPay i v) :
    ∃ m, forUpTo n f s = { s with pay := m } ∧ (Memory.wf s.pay = true → Memory.wf m = true) ∧
      (∀ N, n ≤ N → Memory.below N s.pay = true → Memory.below N m = true) := by
  refine forUpTo_induct (fun k (t : State) => ∃ m, t = { s with pay := m } ∧ (Memory.wf s.pay = true → Memory.wf m = true) ∧
      (∀ N, k ≤ N → Memory.below N s.pay = true → Memory.below N m = true)) n
      ⟨s.pay, rfl, id, fun _ _ h => h⟩ ?_
  rintro i t - ⟨m, rfl, h1, h2⟩
  obtain ⟨b, hb⟩ := hf i { s with pay := m }
  exact ⟨Memory.write m i b, hb, fun h => Memory.wf_write i b (h1 h),
    fun N hN h => Memory.below_write b (by omega) (h2 N (by omega) h)⟩

/-! ## PACK -/

/-- The two loops of R101 as one over the bit positions. -/
theorem State.packLoop_eq (s : State) (n : Nat) :
    s.packLoop n = forUpTo (8 * n) (fun i t => t.setBit i (t.payBit (i / 8) (7 - i % 8))) s := by
  induction n with
  | zero => simp only [State.packLoop, forUpTo]
  | succ n ih =>
    have e : s.packLoop (n + 1) = forUpTo 8 (fun j u => u.setBit (8 * n + j) (u.payBit n (7 - j))) (s.packLoop n) := rfl
    rw [e, Nat.mul_add, forUpTo_add, ← ih]
    refine forUpTo_congr 8 _ fun j t hj => ?_
    have e1 : (8 * n + j) / 8 = n := by omega
    have e2 : (8 * n + j) % 8 = j := by omega
    simp only [e1, e2]

/-- PACK's loop touches only BITS. -/
theorem State.packLoop_form (s : State) (n : Nat) :
    ∃ m, s.packLoop n = { s with bits := m } ∧ (Memory.wf s.bits = true → Memory.wf m = true) ∧
      (∀ N, 8 * n ≤ N → Memory.below N s.bits = true → Memory.below N m = true) := by
  rw [State.packLoop_eq]
  exact State.bitsLoop_form s _ _ fun i t => ⟨_, rfl⟩

/-- What PACK's loop leaves in each bit entry. -/
theorem State.packLoop_bitAt (s : State) (n i : Nat) :
    (s.packLoop n).bitAt i = if i < 8 * n then s.payBit (i / 8) (7 - i % 8) else s.bitAt i := by
  rw [State.packLoop_eq]
  refine (forUpTo_induct (fun k (t : State) => (∀ a b, t.payBit a b = s.payBit a b) ∧
    ∀ i, t.bitAt i = if i < k then s.payBit (i / 8) (7 - i % 8) else s.bitAt i) (8 * n) ⟨fun _ _ => rfl, fun i => by simp⟩ ?_).2 i
  rintro k t - ⟨h1, h2⟩
  refine ⟨fun a b => by simpa using h1 a b, fun j => ?_⟩
  rw [State.bitAt_setBit, h1, h2]
  rcases Nat.lt_trichotomy j k with hj | rfl | hj
  · rw [if_neg (by omega), if_pos hj, if_pos (by omega)]
  · rw [if_pos rfl, if_pos (by omega)]
  · rw [if_neg (by omega), if_neg (by omega), if_neg (by omega)]

/-! ## ENCODE -/

/-- ENCODE's data loop touches only CHAN. -/
theorem State.encodeLoop_form (s : State) (n : Nat) :
    ∃ m, s.encodeLoop n = { s with chan := m } ∧ (Memory.wf s.chan = true → Memory.wf m = true) ∧
      (∀ N, n ≤ N → Memory.below N s.chan = true → Memory.below N m = true) :=
  State.chanLoop_form s _ _ fun _ _ => ⟨_, rfl⟩

/-- What ENCODE's data loop leaves in each channel entry: each position is read once and written once (R116). -/
theorem State.encodeLoop_chanAt (s : State) (n i : Nat) :
    (s.encodeLoop n).chanAt i = if i < n then adjust (s.chanAt i) (s.bitAt i) else s.chanAt i := by
  refine (forUpTo_induct (fun k (t : State) => (∀ j, t.bitAt j = s.bitAt j) ∧
    ∀ i, t.chanAt i = if i < k then adjust (s.chanAt i) (s.bitAt i) else s.chanAt i) n ⟨fun _ => rfl, fun i => by simp⟩ ?_).2 i
  rintro k t - ⟨h1, h2⟩
  refine ⟨fun j => by simpa using h1 j, fun j => ?_⟩
  rw [State.chanAt_setChan, h1, h2, h2]
  rcases Nat.lt_trichotomy j k with hj | rfl | hj
  · rw [if_neg (by omega), if_pos hj, if_pos (by omega)]
  · rw [if_pos rfl, if_neg (by omega), if_pos (by omega)]
  · rw [if_neg (by omega), if_neg (by omega), if_neg (by omega)]

/-! ## DECODE -/

/-- Where DECODE stops: within the stream or at its end, at the first 0 if there is one. -/
theorem State.stopFrom_spec (s : State) (k p : Nat) :
    p ≤ s.stopFrom k p ∧ s.stopFrom k p ≤ p + k ∧ (∀ q, p ≤ q → q < s.stopFrom k p → s.chanAt q ≠ 0) ∧
      (s.stopFrom k p < p + k → s.chanAt (s.stopFrom k p) = 0) := by
  induction k generalizing p with
  | zero => exact ⟨Nat.le_refl _, Nat.le_refl _, fun q h1 h2 => absurd h2 (by simp only [State.stopFrom]; omega),
      fun h => absurd h (by simp [State.stopFrom])⟩
  | succ k ih =>
    simp only [State.stopFrom]
    split
    · next h => exact ⟨Nat.le_refl _, by omega, fun q h1 h2 => by omega, fun _ => h⟩
    · next h =>
      obtain ⟨h1, h2, h3, h4⟩ := ih (p + 1)
      refine ⟨by omega, by omega, fun q hq hq' => ?_, fun hlt => h4 (by omega)⟩
      rcases Nat.eq_or_lt_of_le hq with rfl | hq
      · exact h
      · exact h3 q hq hq'

/-- The stop is determined by what `State.stopFrom_spec` says of it. -/
theorem State.stopFrom_eq (s : State) (k p q : Nat) (h1 : p ≤ q) (h2 : q ≤ p + k)
    (h3 : ∀ r, p ≤ r → r < q → s.chanAt r ≠ 0) (h4 : q < p + k → s.chanAt q = 0) : s.stopFrom k p = q := by
  obtain ⟨g1, g2, g3, g4⟩ := s.stopFrom_spec k p
  rcases Nat.lt_trichotomy (s.stopFrom k p) q with h | h | h
  · exact absurd (g4 (by omega)) (h3 _ g1 h)
  · exact h
  · exact absurd (h4 (by omega)) (g3 q h1 h)

theorem State.stopFrom_setBit (s : State) (i : Nat) (b : Bit) (k p : Nat) :
    (s.setBit i b).stopFrom k p = s.stopFrom k p := by
  induction k generalizing p with
  | zero => rfl
  | succ k ih => simp only [State.stopFrom, State.chanAt_setBit, ih]

/-- DECODE's loop: it stops at `stopFrom`, touches only BITS, BITLEN, POS and the completion, and each bit is its position's
parity. -/
theorem State.decodeLoop_form (s : State) (k p : Nat) :
    ∃ m, s.decodeLoop k p =
        ((({ s with bits := m }.setPos (s.stopFrom k p)).setBitlen (s.stopFrom k p)).complete
          (if s.stopFrom k p < p + k then .ok else .malformedEncoding)) ∧
      (Memory.wf s.bits = true → Memory.wf m = true) ∧
      (∀ N, p + k ≤ N → Memory.below N s.bits = true → Memory.below N m = true) ∧
      (∀ i, ({ s with bits := m } : State).bitAt i =
        if p ≤ i ∧ i < s.stopFrom k p then parityBit (s.chanAt i) else s.bitAt i) := by
  induction k generalizing p s with
  | zero =>
    refine ⟨s.bits, ?_, id, fun _ _ h => h, fun i => ?_⟩
    · simp [State.decodeLoop, State.stopFrom]
    · rw [if_neg (by simp only [State.stopFrom]; omega)]
  | succ k ih =>
    by_cases h : s.chanAt p = 0
    · refine ⟨s.bits, ?_, id, fun _ _ h => h, fun i => ?_⟩
      · simp [State.decodeLoop, State.stopFrom, h]
      · rw [if_neg (by simp only [State.stopFrom, if_pos h]; omega)]
    · obtain ⟨m, h1, h2, h3, h4⟩ := ih (s.setBit p (parityBit (s.chanAt p))) (p + 1)
      rw [State.stopFrom_setBit] at h1 h4
      have hp := (s.stopFrom_spec k (p + 1)).1
      refine ⟨m, ?_, fun hw => h2 (Memory.wf_write _ _ hw),
        fun N hN hb => h3 N (by omega) (Memory.below_write _ (by omega) hb), fun i => ?_⟩
      · simp only [State.decodeLoop, State.stopFrom, if_neg h]
        rw [h1]
        have e : p + (k + 1) = p + 1 + k := by omega
        rw [e]
        rfl
      · refine (h4 i).trans ?_
        rw [State.chanAt_setBit, State.bitAt_setBit]
        simp only [State.stopFrom, if_neg h]
        rcases Nat.lt_trichotomy i p with hi | rfl | hi
        · rw [if_neg (by omega), if_neg (by omega), if_neg (by omega)]
        · rw [if_neg (by omega), if_pos rfl, if_pos (by omega)]
        · by_cases hq : i < s.stopFrom k (p + 1)
          · rw [if_pos (by omega), if_pos (by omega)]
          · rw [if_neg (by omega), if_neg (by omega), if_neg (by omega)]

/-! ## UNPACK -/

/-- UNPACK's loop touches only PAY. -/
theorem State.unpackLoop_form (s : State) (g : Nat) :
    ∃ m, s.unpackLoop g = { s with pay := m } ∧ (Memory.wf s.pay = true → Memory.wf m = true) ∧
      (∀ N, g ≤ N → Memory.below N s.pay = true → Memory.below N m = true) :=
  State.payLoop_form s _ _ fun _ _ => ⟨_, rfl⟩

/-- What UNPACK's loop leaves in each payload byte. -/
theorem State.unpackLoop_payAt (s : State) (g k : Nat) :
    (s.unpackLoop g).payAt k = if k < g then s.bitsByte k else s.payAt k := by
  refine (forUpTo_induct (fun i (t : State) => (∀ j, t.bitsByte j = s.bitsByte j) ∧
    ∀ k, t.payAt k = if k < i then s.bitsByte k else s.payAt k) g ⟨fun _ => rfl, fun i => by simp⟩ ?_).2 k
  rintro i t - ⟨h1, h2⟩
  refine ⟨fun j => by simpa using h1 j, fun j => ?_⟩
  rw [State.payAt_setPay, h1, h2]
  rcases Nat.lt_trichotomy j i with hj | rfl | hj
  · rw [if_neg (by omega), if_pos hj, if_pos (by omega)]
  · rw [if_pos rfl, if_pos (by omega)]
  · rw [if_neg (by omega), if_neg (by omega), if_neg (by omega)]

/-! ## Abandoned commands -/

/-- Forgetting BITS[0..n-1] touches only BITS and the draw counter, and no entry from n on. -/
theorem State.forgetBits_form (s : State) (n : Nat) :
    ∃ m, s.forgetBits n = { s with bits := m }.nextDraw ∧ (Memory.wf s.bits = true → Memory.wf m = true) ∧
      (∀ N, n ≤ N → Memory.below N s.bits = true → Memory.below N m = true) := by
  obtain ⟨m, h1, h2, h3⟩ := State.bitsLoop_form s n (fun i t => t.setBit i (Config.abandonedBit t.draws i)) fun _ _ => ⟨_, rfl⟩
  exact ⟨m, by rw [State.forgetBits, h1], h2, h3⟩

theorem State.forgetChan_form (s : State) (n : Nat) :
    ∃ m, s.forgetChan n = { s with chan := m }.nextDraw ∧ (Memory.wf s.chan = true → Memory.wf m = true) ∧
      (∀ N, n ≤ N → Memory.below N s.chan = true → Memory.below N m = true) := by
  obtain ⟨m, h1, h2, h3⟩ := State.chanLoop_form s n (fun i t => t.setChan i (Config.abandonedByte t.draws i)) fun _ _ => ⟨_, rfl⟩
  exact ⟨m, by rw [State.forgetChan, h1], h2, h3⟩

theorem State.forgetPay_form (s : State) (n : Nat) :
    ∃ m, s.forgetPay n = { s with pay := m }.nextDraw ∧ (Memory.wf s.pay = true → Memory.wf m = true) ∧
      (∀ N, n ≤ N → Memory.below N s.pay = true → Memory.below N m = true) := by
  obtain ⟨m, h1, h2, h3⟩ := State.payLoop_form s n (fun i t => t.setPay i (Config.abandonedByte t.draws i)) fun _ _ => ⟨_, rfl⟩
  exact ⟨m, by rw [State.forgetPay, h1], h2, h3⟩

/-- Entries from n on keep their values when BITS[0..n-1] are forgotten. -/
theorem State.forgetBits_bitAt (s : State) (n i : Nat) (hi : n ≤ i) : (s.forgetBits n).bitAt i = s.bitAt i := by
  refine forUpTo_induct (fun k (t : State) => k ≤ n → t.bitAt i = s.bitAt i) n (fun _ => rfl) ?_ (Nat.le_refl n)
  intro k t hk h _
  rw [State.bitAt_setBit, if_neg (by omega)]
  exact h (by omega)

theorem State.forgetChan_chanAt (s : State) (n i : Nat) (hi : n ≤ i) : (s.forgetChan n).chanAt i = s.chanAt i := by
  refine forUpTo_induct (fun k (t : State) => k ≤ n → t.chanAt i = s.chanAt i) n (fun _ => rfl) ?_ (Nat.le_refl n)
  intro k t hk h _
  rw [State.chanAt_setChan, if_neg (by omega)]
  exact h (by omega)

theorem State.forgetPay_payAt (s : State) (n i : Nat) (hi : n ≤ i) : (s.forgetPay n).payAt i = s.payAt i := by
  refine forUpTo_induct (fun k (t : State) => k ≤ n → t.payAt i = s.payAt i) n (fun _ => rfl) ?_ (Nat.le_refl n)
  intro k t hk h _
  rw [State.payAt_setPay, if_neg (by omega)]
  exact h (by omega)

/-! ## Window writes -/

/-- The bits a BITS lane can store, or the byte of the other windows: what an entry reads after a lane is stored (R59 to R61). -/
theorem State.entryAt_setEntry (s : State) (b c : Buffer) (i j : Nat) (v : Byte) :
    (s.setEntry b i v).entryAt c j =
      if c = b ∧ j = i then (match b with | .bits => (v.extractLsb' 0 1).setWidth 8 | _ => v) else s.entryAt c j := by
  cases b <;> cases c <;>
    (simp only [State.setEntry, State.entryAt, State.chanAt_setChan, State.bitAt_setBit, State.payAt_setPay,
      State.chanAt_setBit, State.chanAt_setPay, State.bitAt_setChan, State.bitAt_setPay, State.payAt_setChan,
      State.payAt_setBit, reduceCtorEq, false_and, true_and, if_false]; try (split <;> rfl))

/-- A window write touches only the buffers' storage; it keeps the form, and the bound of the buffer it writes. -/
theorem State.writeWindow_form (s : State) (b : Buffer) (i : Nat) (n : Size) (v : Word) :
    ∃ c d e, s.writeWindow b i n v = { s with chan := c, bits := d, pay := e } ∧
      (Memory.wf s.chan = true → Memory.wf c = true) ∧ (Memory.wf s.bits = true → Memory.wf d = true) ∧
      (Memory.wf s.pay = true → Memory.wf e = true) ∧
      (i + n.bytes ≤ b.length s.params →
        (Memory.below s.params.maxChan s.chan = true → Memory.below s.params.maxChan c = true) ∧
        (Memory.below s.params.maxBits s.bits = true → Memory.below s.params.maxBits d = true) ∧
        (Memory.below s.params.maxPay s.pay = true → Memory.below s.params.maxPay e = true)) := by
  refine forUpTo_induct (fun k (t : State) => ∃ c d e, t = { s with chan := c, bits := d, pay := e } ∧
      (Memory.wf s.chan = true → Memory.wf c = true) ∧ (Memory.wf s.bits = true → Memory.wf d = true) ∧
      (Memory.wf s.pay = true → Memory.wf e = true) ∧
      (i + n.bytes ≤ b.length s.params →
        (Memory.below s.params.maxChan s.chan = true → Memory.below s.params.maxChan c = true) ∧
        (Memory.below s.params.maxBits s.bits = true → Memory.below s.params.maxBits d = true) ∧
        (Memory.below s.params.maxPay s.pay = true → Memory.below s.params.maxPay e = true))) n.bytes
    ⟨_, _, _, rfl, id, id, id, fun _ => ⟨id, id, id⟩⟩ ?_
  rintro k t hk ⟨c, d, e, rfl, h1, h2, h3, h4⟩
  cases b with
  | chan =>
    refine ⟨_, _, _, rfl, fun h => Memory.wf_write _ _ (h1 h), h2, h3, fun hi => ⟨fun h => ?_, (h4 hi).2⟩⟩
    simp only [Buffer.length] at hi
    exact Memory.below_write _ (by omega) ((h4 hi).1 h)
  | bits =>
    refine ⟨_, _, _, rfl, h1, fun h => Memory.wf_write _ _ (h2 h), h3, fun hi => ⟨(h4 hi).1, fun h => ?_, (h4 hi).2.2⟩⟩
    simp only [Buffer.length] at hi
    exact Memory.below_write _ (by omega) ((h4 hi).2.1 h)
  | pay =>
    refine ⟨_, _, _, rfl, h1, h2, fun h => Memory.wf_write _ _ (h3 h), fun hi => ⟨(h4 hi).1, (h4 hi).2.1, fun h => ?_⟩⟩
    simp only [Buffer.length] at hi
    exact Memory.below_write _ (by omega) ((h4 hi).2.2 h)

/-- What an entry reads after a window write: its lane, or what it read before (R58). -/
theorem State.writeWindow_entryAt (s : State) (b c : Buffer) (i j : Nat) (n : Size) (v : Word) :
    (s.writeWindow b i n v).entryAt c j =
      if c = b ∧ i ≤ j ∧ j < i + n.bytes then
        (match b with | .bits => ((lane v (j - i)).extractLsb' 0 1).setWidth 8 | _ => lane v (j - i))
      else s.entryAt c j := by
  refine forUpTo_induct (fun k (t : State) => t.entryAt c j = if c = b ∧ i ≤ j ∧ j < i + k then
        (match b with | .bits => ((lane v (j - i)).extractLsb' 0 1).setWidth 8 | _ => lane v (j - i))
      else s.entryAt c j) n.bytes (by rw [if_neg (by omega)]) ?_
  intro k t _ h
  rw [State.entryAt_setEntry, h]
  by_cases hc : c = b ∧ j = i + k
  · obtain ⟨hc, rfl⟩ := hc
    rw [if_pos ⟨hc, rfl⟩, if_pos ⟨hc, by omega, by omega⟩]
    have e : i + k - i = k := by omega
    rw [e]
  · rw [if_neg hc]
    by_cases h2 : c = b ∧ i ≤ j ∧ j < i + k
    · rw [if_pos h2, if_pos ⟨h2.1, h2.2.1, by omega⟩]
    · rw [if_neg h2, if_neg]
      rintro ⟨h5, h6, h7⟩
      exact hc ⟨h5, by by_contra hne; exact h2 ⟨h5, h6, by omega⟩⟩

end Sys2Proof.Machine
end

