-- ==== Sys2Proof/Laws/Bus.lean ====
section
/-! SUPPORT. What a host address reaches, and everything one host access can do. -/

namespace Sys2Proof.Machine

/-! ## Addresses -/

theorem Reg.ofOffset_offset (r : Reg) : Reg.ofOffset r.offset = some r := by cases r <;> rfl

theorem Reg.offset_lt (r : Reg) : r.offset < 0x2C := by cases r <;> decide

theorem Reg.offset_aligned (r : Reg) : r.offset % 4 = 0 := by cases r <;> rfl

/-- An offset holds a register exactly when it is a multiple of 4 below 0x2C: the eleven registers fill the region (R51). -/
theorem Reg.ofOffset_isSome : ∀ a, a < 0x2C → ((Reg.ofOffset a).isSome = true ↔ a % 4 = 0) := by decide

theorem Reg.eq_offset_of_ofOffset {a : Nat} {r : Reg} (ha : a < 0x2C) (h : Reg.ofOffset a = some r) : a = r.offset := by
  have key : ∀ a, a < 0x2C → (Reg.ofOffset a).all (fun r => a == r.offset) = true := by decide
  simpa [h] using key a ha

theorem Buffer.le_base (b : Buffer) : 0x10000000 ≤ b.base := by cases b <;> decide

theorem Buffer.admits_iff (p : Params) (b : Buffer) (a : Nat) (n : Size) :
    b.admits p a n = true ↔ b.base ≤ a ∧ a + n.bytes ≤ b.base + b.length p ∧ a % n.bytes = 0 := by
  simp [Buffer.admits, and_assoc]

theorem Size.bytes_pos (n : Size) : 1 ≤ n.bytes := by cases n <;> decide

/-- An access in the register region reaches the register at its offset, when it is 4 bytes wide (R51). -/
theorem resolve_low (p : Params) (addr : Word) (n : Size) (h : addr.toNat < 0x2C) :
    resolve p addr n = if n = .word then (Reg.ofOffset addr.toNat).map .reg else none := by
  simp only [resolve, if_pos h]

/-- A window reached is one that admits the access, from the entry the address names on (R54 to R57). -/
theorem resolve_window {p : Params} {addr : Word} {n : Size} {b : Buffer} {i : Nat}
    (h : resolve p addr n = some (.window b i)) : b.admits p addr.toNat n = true ∧ addr.toNat = b.base + i := by
  simp only [resolve] at h
  split at h
  · split at h
    · cases h' : Reg.ofOffset addr.toNat <;> simp [h'] at h
    · simp at h
  · split at h
    · next h1 =>
      simp only [Option.some.injEq, Target.window.injEq] at h
      obtain ⟨rfl, rfl⟩ := h
      exact ⟨h1, by have := ((Buffer.admits_iff _ _ _ _).1 h1).1; omega⟩
    · split at h
      · next h1 =>
        simp only [Option.some.injEq, Target.window.injEq] at h
        obtain ⟨rfl, rfl⟩ := h
        exact ⟨h1, by have := ((Buffer.admits_iff _ _ _ _).1 h1).1; omega⟩
      · split at h
        · next h1 =>
          simp only [Option.some.injEq, Target.window.injEq] at h
          obtain ⟨rfl, rfl⟩ := h
          exact ⟨h1, by have := ((Buffer.admits_iff _ _ _ _).1 h1).1; omega⟩
        · simp at h

/-- A register reached is reached by a 4-byte access at its offset (R51). -/
theorem resolve_reg {p : Params} {addr : Word} {n : Size} {r : Reg} (h : resolve p addr n = some (.reg r)) :
    addr.toNat = r.offset ∧ n = .word := by
  by_cases hlt : addr.toNat < 0x2C
  · rw [resolve_low p addr n hlt] at h
    split at h
    · next hn =>
      cases h' : Reg.ofOffset addr.toNat with
      | none => simp [h'] at h
      | some r' =>
        simp only [h', Option.map_some, Option.some.injEq, Target.reg.injEq] at h
        subst h
        exact ⟨Reg.eq_offset_of_ofOffset hlt h', hn⟩
    · simp at h
  · simp only [resolve, if_neg hlt] at h
    split at h
    · simp at h
    · split at h
      · simp at h
      · split at h <;> simp at h

/-- The 4-byte access at a register's offset reaches it. -/
theorem resolve_of_offset (p : Params) (addr : Word) (r : Reg) (h : addr.toNat = r.offset) :
    resolve p addr .word = some (.reg r) := by
  rw [resolve_low p addr .word (by rw [h]; exact r.offset_lt), if_pos rfl, h, Reg.ofOffset_offset]
  rfl

/-- The windows lie in slots of their own when the parameters are legal (R50). -/
theorem Buffer.length_le {p : Params} (hp : p.Legal) (b : Buffer) : b.length p ≤ 0x10000000 := by
  obtain ⟨h1, h2, h3, h4⟩ := hp
  cases b <;> simp only [Buffer.length, Params.maxBits] at * <;> omega

/-- An access that a window admits reaches that window (R50, R57). -/
theorem resolve_of_admits {p : Params} (hp : p.Legal) (addr : Word) (n : Size) (b : Buffer)
    (h : b.admits p addr.toNat n = true) : resolve p addr n = some (.window b (addr.toNat - b.base)) := by
  have hb := (Buffer.admits_iff _ _ _ _).1 h
  have hl := Buffer.length_le hp b
  have hn := n.bytes_pos
  have hlow : ¬ addr.toNat < 0x2C := by have := b.le_base; omega
  have hno : ∀ c : Buffer, c ≠ b → c.admits p addr.toNat n = false := by
    intro c hc
    have hl' := Buffer.length_le hp c
    rw [Bool.eq_false_iff]
    intro h'
    have hc' := (Buffer.admits_iff _ _ _ _).1 h'
    cases b <;> cases c <;> simp only [Buffer.base] at hb hc' <;> first | exact absurd rfl hc | omega
  simp only [resolve, if_neg hlow]
  cases b with
  | chan => rw [if_pos h]
  | bits => rw [hno .chan (by decide), if_pos h]; rfl
  | pay => rw [hno .chan (by decide), hno .bits (by decide), if_pos h]; rfl

/-- What the map admits, in the spec's words (R50, R51, R57): every other access is a bus error. -/
theorem resolve_isSome (p : Params) (addr : Word) (n : Size) :
    (resolve p addr n).isSome = true ↔
      (addr.toNat < 0x2C ∧ n = .word ∧ addr.toNat % 4 = 0) ∨ ∃ b : Buffer, b.admits p addr.toNat n = true := by
  by_cases hlt : addr.toNat < 0x2C
  · rw [resolve_low p addr n hlt]
    have hno : ¬ ∃ b : Buffer, b.admits p addr.toNat n = true := by
      rintro ⟨b, hb⟩
      have := ((Buffer.admits_iff _ _ _ _).1 hb).1
      have := b.le_base
      omega
    by_cases hn : n = .word
    · rw [if_pos hn, Option.isSome_map]
      have := Reg.ofOffset_isSome addr.toNat hlt
      tauto
    · rw [if_neg hn]
      simp only [Option.isSome_none, Bool.false_eq_true, false_iff]
      tauto
  · simp only [resolve, if_neg hlt]
    constructor
    · intro h
      right
      split at h
      · exact ⟨_, ‹_›⟩
      · split at h
        · exact ⟨_, ‹_›⟩
        · split at h
          · exact ⟨_, ‹_›⟩
          · simp at h
    · rintro (h | ⟨b, hb⟩)
      · exact absurd h.1 hlt
      · split
        · rfl
        · split
          · rfl
          · split
            · rfl
            · cases b <;> exact absurd hb ‹_›

/-! ## Accesses -/

/-- Everything a host read can do. -/
theorem memRead_cases {a : Word} {n : Size} {s t : State} (h : memRead a n s = .next t) :
    (∃ r, resolve s.params a n = some (.reg r) ∧ t = s.respond (s.readReg r)) ∨
    (∃ b i, resolve s.params a n = some (.window b i) ∧ s.status.busy = true ∧
      t = (s.respond (n.truncate (Config.busyRead s.draws))).nextDraw) ∨
    (∃ b i, resolve s.params a n = some (.window b i) ∧ s.status.busy = false ∧ t = s.respond (s.readWindow b i n)) := by
  unfold memRead at h
  split at h
  · cases h
  · cases h; exact .inl ⟨_, ‹_›, rfl⟩
  · split at h
    · cases h; exact .inr (.inl ⟨_, _, ‹_›, ‹_›, rfl⟩)
    · cases h; exact .inr (.inr ⟨_, _, ‹_›, Bool.eq_false_iff.2 ‹_›, rfl⟩)

/-- What a host read leaves unchanged: all but the data returned and the draw counter. -/
theorem memRead_frame {a : Word} {n : Size} {s t : State} (h : memRead a n s = .next t) :
    t = { s with reads := t.reads, draws := t.draws } := by
  rcases memRead_cases h with ⟨r, h1, rfl⟩ | ⟨b, i, h1, h2, rfl⟩ | ⟨b, i, h1, h2, rfl⟩ <;> rfl

/-- A 4-byte read at a register's offset returns the register. -/
theorem memRead_reg (s : State) (a : Word) (r : Reg) (h : a.toNat = r.offset) :
    memRead a .word s = .next (s.respond (s.readReg r)) := by
  simp only [memRead, resolve_of_offset s.params a r h]

/-- A 4-byte write at a register's offset writes the register, under the busy rule. -/
theorem memWrite_reg (s : State) (a v : Word) (r : Reg) (h : a.toNat = r.offset) :
    memWrite a .word v s = .next (s.writeReg r v) := by
  simp only [memWrite, resolve_of_offset s.params a r h]

/-- Everything a host write can do. -/
theorem memWrite_cases {a : Word} {n : Size} {v : Word} {s t : State} (h : memWrite a n v s = .next t) :
    (∃ r, resolve s.params a n = some (.reg r) ∧ s.status.busy = true ∧ r.busyDrops = true ∧ t = s.dropWrite) ∨
    (∃ r, resolve s.params a n = some (.reg r) ∧ (s.status.busy = false ∨ r.busyDrops = false) ∧ t = s.storeReg r v) ∨
    (∃ b i, resolve s.params a n = some (.window b i) ∧ s.status.busy = true ∧ t = s.dropWrite) ∨
    (∃ b i, resolve s.params a n = some (.window b i) ∧ s.status.busy = false ∧ t = s.writeWindow b i n v) := by
  unfold memWrite at h
  split at h
  · cases h
  · next r hr =>
    cases h
    unfold State.writeReg
    split
    · next hb =>
      rw [Bool.and_eq_true] at hb
      exact .inl ⟨r, hr, hb.1, hb.2, rfl⟩
    · next hb =>
      refine .inr (.inl ⟨r, hr, ?_, rfl⟩)
      cases h1 : s.status.busy <;> simp_all
  · split at h
    · cases h; exact .inr (.inr (.inl ⟨_, _, ‹_›, ‹_›, rfl⟩))
    · cases h; exact .inr (.inr (.inr ⟨_, _, ‹_›, Bool.eq_false_iff.2 ‹_›, rfl⟩))

/-- A register's address is its offset. -/
theorem Reg.addr_of_offset {a : Word} {r : Reg} (h : a.toNat = r.offset) : a = BitVec.ofNat 32 r.offset := by
  apply BitVec.eq_of_toNat_eq
  rw [h]
  cases r <;> rfl

/-- What a host write leaves, by kind: dropped; a STATUS write; an accepted CMD write; a configuration register, with BITLEN and
BYTELEN kept legal; nothing; or a window. -/
theorem memWrite_form {a : Word} {n : Size} {v : Word} {s t : State} (h : memWrite a n v s = .next t) :
    (s.status.busy = true ∧ t = s.dropWrite) ∨ (a = 0x08 ∧ n = .word ∧ t = s.writeStatus v) ∨
    (a = 0x04 ∧ n = .word ∧ s.status.busy = false ∧ t = s.accept v) ∨
    (s.status.busy = false ∧
      (∃ w h c, t = { s with width := w, height := h, channels := c, bitlen := t.bitlen, bytelen := t.bytelen }) ∧
      (t.bitlen = s.bitlen ∨ t.bitlen.toNat ≤ s.params.maxBits) ∧ (t.bytelen = s.bytelen ∨ t.bytelen.toNat ≤ s.params.maxPay)) ∨
    t = s ∨
    (s.status.busy = false ∧ ∃ b i, resolve s.params a n = some (.window b i) ∧ t = s.writeWindow b i n v) := by
  rcases memWrite_cases h with ⟨r, h1, h2, h3, rfl⟩ | ⟨r, h1, h2, rfl⟩ | ⟨b, i, h1, h2, rfl⟩ | ⟨b, i, h1, h2, rfl⟩
  · exact .inl ⟨h2, rfl⟩
  · obtain ⟨ha, hn⟩ := resolve_reg h1
    have ha := Reg.addr_of_offset ha
    have idle : r.busyDrops = true → s.status.busy = false := fun hr => h2.elim id fun h => by rw [hr] at h; cases h
    cases r with
    | status => exact .inr (.inl ⟨ha, hn, rfl⟩)
    | cmd => exact .inr (.inr (.inl ⟨ha, hn, idle rfl, rfl⟩))
    | width => exact .inr (.inr (.inr (.inl ⟨idle rfl, ⟨v, s.height, s.channels, rfl⟩, .inl rfl, .inl rfl⟩)))
    | height => exact .inr (.inr (.inr (.inl ⟨idle rfl, ⟨s.width, v, s.channels, rfl⟩, .inl rfl, .inl rfl⟩)))
    | channels => exact .inr (.inr (.inr (.inl ⟨idle rfl, ⟨s.width, s.height, v, rfl⟩, .inl rfl, .inl rfl⟩)))
    | bitlen =>
      refine .inr (.inr (.inr (.inl ⟨idle rfl, ⟨s.width, s.height, s.channels, ?_⟩, ?_, ?_⟩))) <;>
        simp only [State.storeReg] <;> split <;> simp_all
    | bytelen =>
      refine .inr (.inr (.inr (.inl ⟨idle rfl, ⟨s.width, s.height, s.channels, ?_⟩, ?_, ?_⟩))) <;>
        simp only [State.storeReg] <;> split <;> simp_all
    | id => exact .inr (.inr (.inr (.inr (.inl rfl))))
    | capacity => exact .inr (.inr (.inr (.inr (.inl rfl))))
    | reqBits => exact .inr (.inr (.inr (.inr (.inl rfl))))
    | availBits => exact .inr (.inr (.inr (.inr (.inl rfl))))
  · exact .inl ⟨h2, rfl⟩
  · exact .inr (.inr (.inr (.inr (.inr ⟨h2, b, i, h1, rfl⟩))))

end Sys2Proof.Machine
end

