-- ==== Sys2Proof/Laws/PerInstr.lean ====
section
/-! SUPPORT. Laws about each command as syntax: it is well formed, its word is, and its word decodes to it (R80, R83, R84). -/

/-- A command is well formed, its word is, with OP in bits 3:0 and zeros above, and decoding the word gives it back. -/
def Sys2Proof.Laws.CommandWord.Statement (i : Sys2Proof.Instr) : Prop :=
  i.wf = true ∧ Sys2Proof.wordWf (Sys2Proof.encode i) = true ∧ (Sys2Proof.encode i).toNat < 16 ∧
    Sys2Proof.decode (Sys2Proof.encode i) = .ok i

theorem Sys2Proof.Laws.CommandWord.nop : Sys2Proof.Laws.CommandWord.Statement .nop := ⟨rfl, rfl, by decide, rfl⟩

theorem Sys2Proof.Laws.CommandWord.pack : Sys2Proof.Laws.CommandWord.Statement .pack := ⟨rfl, rfl, by decide, rfl⟩

theorem Sys2Proof.Laws.CommandWord.encode : Sys2Proof.Laws.CommandWord.Statement .encode := ⟨rfl, rfl, by decide, rfl⟩

theorem Sys2Proof.Laws.CommandWord.decode : Sys2Proof.Laws.CommandWord.Statement .decode := ⟨rfl, rfl, by decide, rfl⟩

theorem Sys2Proof.Laws.CommandWord.unpack : Sys2Proof.Laws.CommandWord.Statement .unpack := ⟨rfl, rfl, by decide, rfl⟩
end

