-- ==== Sys2Proof/Laws/Step.lean ====
section
/-! SUPPORT. Everything one step can do, once: the commands, the engine's turn, the events. -/

namespace Sys2Proof.Machine

/-! ## Commands: the one next state each gives -/

theorem exec_nop (s : State) : exec .nop s = .next (s.complete .ok) := rfl

/-- PACK always completes: it touches BITS, POS, BITLEN and the completion's fields. -/
theorem exec_pack (s : State) :
    ∃ m, exec .pack s =
        .next ((({ s with bits := m }.setPos (8 * s.bytelen.toNat)).setBitlen (8 * s.bytelen.toNat)).complete .ok) ∧
      (∀ i, ({ s with bits := m } : State).bitAt i =
        if i < 8 * s.bytelen.toNat then s.payBit (i / 8) (7 - i % 8) else s.bitAt i) ∧
      (Memory.wf s.bits = true → Memory.wf m = true) ∧
      (∀ N, 8 * s.bytelen.toNat ≤ N → Memory.below N s.bits = true → Memory.below N m = true) := by
  obtain ⟨m, h1, h2, h3⟩ := s.packLoop_form s.bytelen.toNat
  refine ⟨m, ?_, fun i => ?_, h2, h3⟩
  · show Host.Outcome.next _ = _
    rw [h1]
  · rw [← h1]; exact s.packLoop_bitAt _ i

/-- ENCODE of a refused grid writes only the completion's fields. -/
theorem exec_encode_refused {s : State} {c : Code} (h : s.gridRefusal = some c) : exec .encode s = .next (s.complete c) := by
  show execEncode s = _
  simp only [execEncode, h]

/-- ENCODE beyond the capacity writes only the report and the completion's fields. -/
theorem exec_encode_exceeded {s : State} (h : s.gridRefusal = none) (hc : s.capacity < (s.bitlen.toNat : Int)) :
    exec .encode s = .next s.capacityExceeded := by
  show execEncode s = _
  simp only [execEncode, h, if_pos hc]

/-- ENCODE within the capacity: it touches CHAN, POS and the completion's fields. -/
theorem exec_encode_ok {s : State} (h : s.gridRefusal = none) (hc : (s.bitlen.toNat : Int) ≤ s.capacity) :
    ∃ m, exec .encode s = .next (({ s with chan := m }.setPos s.bitlen.toNat).complete .ok) ∧
      (∀ i, ({ s with chan := m } : State).chanAt i =
        if i < s.bitlen.toNat then adjust (s.chanAt i) (s.bitAt i) else if i = s.bitlen.toNat then 0 else s.chanAt i) ∧
      (Memory.wf s.chan = true → Memory.wf m = true) ∧
      (∀ N, s.bitlen.toNat < N → Memory.below N s.chan = true → Memory.below N m = true) := by
  obtain ⟨m, h1, h2, h3⟩ := s.encodeLoop_form s.bitlen.toNat
  refine ⟨Memory.write m s.bitlen.toNat 0, ?_, fun i => ?_, fun hw => Memory.wf_write _ _ (h2 hw),
    fun N hN hb => Memory.below_write _ hN (h3 N (by omega) hb)⟩
  · show execEncode s = _
    simp only [execEncode, h]
    rw [if_neg (by omega), h1]
    rfl
  · have h4 := s.encodeLoop_chanAt s.bitlen.toNat i
    rw [h1] at h4
    refine (State.chanAt_setChan { s with chan := m } s.bitlen.toNat i 0).trans ?_
    rw [h4]
    rcases Nat.lt_trichotomy i s.bitlen.toNat with hi | hi | hi
    · rw [if_neg (by omega), if_pos hi, if_pos hi]
    · rw [if_pos hi, if_neg (by omega), if_pos hi]
    · rw [if_neg (by omega), if_neg (by omega), if_neg (by omega), if_neg (by omega)]

/-- DECODE of a refused grid writes only the completion's fields. -/
theorem exec_decode_refused {s : State} {c : Code} (h : s.gridRefusal = some c) : exec .decode s = .next (s.complete c) := by
  show execDecode s = _
  simp only [execDecode, h]

/-- DECODE of an accepted grid: it touches BITS, POS, BITLEN and the completion's fields. -/
theorem exec_decode_run {s : State} (h : s.gridRefusal = none) :
    ∃ m, exec .decode s =
        .next ((({ s with bits := m }.setPos (s.stopFrom s.streamLength 0)).setBitlen (s.stopFrom s.streamLength 0)).complete
          (if s.stopFrom s.streamLength 0 < s.streamLength then .ok else .malformedEncoding)) ∧
      (∀ i, ({ s with bits := m } : State).bitAt i =
        if i < s.stopFrom s.streamLength 0 then parityBit (s.chanAt i) else s.bitAt i) ∧
      (Memory.wf s.bits = true → Memory.wf m = true) ∧
      (∀ N, s.streamLength ≤ N → Memory.below N s.bits = true → Memory.below N m = true) := by
  obtain ⟨m, h1, h2, h3, h4⟩ := s.decodeLoop_form s.streamLength 0
  rw [Nat.zero_add] at h1 h3
  refine ⟨m, ?_, fun i => ?_, h2, h3⟩
  · show execDecode s = _
    simp only [execDecode, h]
    rw [h1]
  · rw [h4 i]
    simp only [Nat.zero_le, true_and]

/-- UNPACK always completes: it touches PAY, POS, BYTELEN and the completion's fields. -/
theorem exec_unpack (s : State) :
    ∃ m, exec .unpack s =
        .next ((({ s with pay := m }.setPos (s.bitlen.toNat / 8)).setBytelen (s.bitlen.toNat / 8)).complete .ok) ∧
      (∀ k, ({ s with pay := m } : State).payAt k = if k < s.bitlen.toNat / 8 then s.bitsByte k else s.payAt k) ∧
      (Memory.wf s.pay = true → Memory.wf m = true) ∧
      (∀ N, s.bitlen.toNat / 8 ≤ N → Memory.below N s.pay = true → Memory.below N m = true) := by
  obtain ⟨m, h1, h2, h3⟩ := s.unpackLoop_form (s.bitlen.toNat / 8)
  refine ⟨m, ?_, fun k => ?_, h2, h3⟩
  · show Host.Outcome.next _ = _
    rw [h1]
  · rw [← h1]; exact s.unpackLoop_payAt _ k

/-! ## The engine's turn and the events -/

theorem engineTurn_idle {s : State} (h : s.phase = .idle) : engineTurn s = .next s := by
  simp only [engineTurn, h]

theorem engineTurn_run {s : State} {i : Instr} (h : s.phase = .run) (hd : decode s.opl = .ok i) : engineTurn s = exec i s := by
  simp only [engineTurn, h, completionStep, hd]

theorem engineTurn_illegal {s : State} {r : Reject} (h : s.phase = .run) (hd : decode s.opl = .error r) :
    engineTurn s = .next (s.complete .illegalCommand) := by
  simp only [engineTurn, h, completionStep, hd, completeIllegal]

/-- Everything the engine's turn can be. -/
theorem engineTurn_cases (s : State) :
    (s.phase = .idle ∧ engineTurn s = .next s) ∨
    (∃ i, s.phase = .run ∧ decode s.opl = .ok i ∧ engineTurn s = exec i s) ∨
    (∃ r, s.phase = .run ∧ decode s.opl = .error r ∧ engineTurn s = .next (s.complete .illegalCommand)) := by
  cases hp : s.phase with
  | idle => exact .inl ⟨rfl, engineTurn_idle hp⟩
  | run =>
    cases hd : decode s.opl with
    | ok i => exact .inr (.inl ⟨i, rfl, rfl, engineTurn_run hp hd⟩)
    | error r => exact .inr (.inr ⟨r, rfl, rfl, engineTurn_illegal hp hd⟩)

/-- With no event left the engine has the turn. -/
theorem step_nil {s : State} (h : s.events = []) : step s = engineTurn s := by
  simp only [step, stepEvent, h]

/-- Else the next event is performed, taken off the list. -/
theorem step_cons {s : State} {e : Event} {rest : List Event} (h : s.events = e :: rest) :
    step s = perform e { s with events := rest } := by
  simp only [step, stepEvent, h]

/-- Everything an abandoned command leaves behind: storage and the draw counter only (R196). -/
theorem State.abandonRunning_form (s : State) :
    ∃ c d e k, s.abandonRunning = { s with chan := c, bits := d, pay := e, draws := k } ∧
      (Memory.wf s.chan = true → Memory.wf c = true) ∧ (Memory.wf s.bits = true → Memory.wf d = true) ∧
      (Memory.wf s.pay = true → Memory.wf e = true) := by
  have triv : ∃ c d e k, s = { s with chan := c, bits := d, pay := e, draws := k } ∧
      (Memory.wf s.chan = true → Memory.wf c = true) ∧ (Memory.wf s.bits = true → Memory.wf d = true) ∧
      (Memory.wf s.pay = true → Memory.wf e = true) := ⟨_, _, _, _, rfl, id, id, id⟩
  unfold State.abandonRunning
  split
  · exact triv
  · split
    · next i _ =>
      cases i with
      | nop => exact triv
      | pack =>
        obtain ⟨m, h1, h2, -⟩ := s.forgetBits_form (8 * s.bytelen.toNat)
        exact ⟨_, m, _, _, h1, id, h2, id⟩
      | encode =>
        simp only [State.abandon]
        split
        · obtain ⟨m, h1, h2, -⟩ := s.forgetChan_form (s.bitlen.toNat + 1)
          exact ⟨m, _, _, _, h1, h2, id, id⟩
        · exact triv
      | decode =>
        simp only [State.abandon]
        split
        · obtain ⟨m, h1, h2, -⟩ := s.forgetBits_form (s.stopFrom s.streamLength 0)
          exact ⟨_, m, _, _, h1, id, h2, id⟩
        · exact triv
      | unpack =>
        obtain ⟨m, h1, h2, -⟩ := s.forgetPay_form (s.bitlen.toNat / 8)
        exact ⟨_, _, m, _, h1, id, id, h2⟩
    · exact triv

/-- Everything one step can do, on the state less the event it takes. -/
theorem step_cases {s t : State} (h : step s = .next t) :
    (s.engineMoves ∧ s.phase = .idle ∧ t = { s with events := s.events.tail }) ∨
    (s.engineMoves ∧ s.phase = .run ∧ ∃ i, decode s.opl = .ok i ∧ exec i { s with events := s.events.tail } = .next t) ∨
    (s.engineMoves ∧ s.phase = .run ∧ (∃ r, decode s.opl = .error r) ∧
      t = { s with events := s.events.tail }.complete .illegalCommand) ∨
    (∃ a n, s.events.head? = some (.read a n) ∧ memRead a n { s with events := s.events.tail } = .next t) ∨
    (∃ a n v, s.events.head? = some (.write a n v) ∧ memWrite a n v { s with events := s.events.tail } = .next t) ∨
    (s.events.head? = some .reset ∧ t = { s with events := s.events.tail }.warmReset) ∨
    (s.events.head? = some .powerOn ∧ t = { s with events := s.events.tail }.powerOnReset) := by
  have eng : ∀ u : State, u = { s with events := s.events.tail } → s.engineMoves → engineTurn u = .next t →
      (s.engineMoves ∧ s.phase = .idle ∧ t = { s with events := s.events.tail }) ∨
      (s.engineMoves ∧ s.phase = .run ∧ ∃ i, decode s.opl = .ok i ∧ exec i { s with events := s.events.tail } = .next t) ∨
      (s.engineMoves ∧ s.phase = .run ∧ (∃ r, decode s.opl = .error r) ∧
        t = { s with events := s.events.tail }.complete .illegalCommand) := by
    rintro u rfl hm hu
    rcases engineTurn_cases { s with events := s.events.tail } with ⟨h1, h2⟩ | ⟨i, h1, h2, h3⟩ | ⟨r, h1, h2, h3⟩
    · rw [h2] at hu; exact .inl ⟨hm, h1, (Host.Outcome.next.inj hu).symm⟩
    · exact .inr (.inl ⟨hm, h1, i, h2, by rw [← h3, hu]⟩)
    · rw [h3] at hu; exact .inr (.inr ⟨hm, h1, ⟨r, h2⟩, (Host.Outcome.next.inj hu).symm⟩)
  cases he : s.events with
  | nil =>
    rw [step_nil he] at h
    rcases eng s (by rw [he, List.tail_nil, ← he]) (.inl he) h with h | h | h <;> rw [he] at h
    · exact .inl h
    · exact .inr (.inl h)
    · exact .inr (.inr (.inl h))
  | cons e rest =>
    rw [step_cons he] at h
    rw [he, List.tail_cons] at eng
    cases e with
    | engine =>
      rcases eng _ rfl (.inr (by rw [he]; rfl)) h with h | h | h
      · exact .inl h
      · exact .inr (.inl h)
      · exact .inr (.inr (.inl h))
    | read a n => exact .inr (.inr (.inr (.inl ⟨a, n, rfl, h⟩)))
    | write a n v => exact .inr (.inr (.inr (.inr (.inl ⟨a, n, v, rfl, h⟩))))
    | reset => exact .inr (.inr (.inr (.inr (.inr (.inl ⟨rfl, (Host.Outcome.next.inj h).symm⟩)))))
    | powerOn => exact .inr (.inr (.inr (.inr (.inr (.inr ⟨rfl, (Host.Outcome.next.inj h).symm⟩)))))

end Sys2Proof.Machine
end

