-- ==== Sys2Proof/Machine/Assembly.lean ====
section
/-! DEFINITION. Host assembly (R87, R88): each line is the bus access it names. Notation for writing event lists only. -/

namespace Sys2Proof.Machine

/-- The address of a register symbol (R87, R22). -/
def Reg.addr (r : Reg) : Word := BitVec.ofNat 32 r.offset

/-- The address of a symbol CHAN+i, BITS+i or PAY+i (R87). -/
def Buffer.addr (b : Buffer) (i : Nat) : Word := BitVec.ofNat 32 (b.base + i)

/-- `wr32 ADDR, DATA` (R87). -/
def wr32 (a v : Word) : Event := .write a .word v

/-- `wr16 ADDR, DATA` (R87). -/
def wr16 (a v : Word) : Event := .write a .half v

/-- `wr8 ADDR, DATA` (R87). -/
def wr8 (a v : Word) : Event := .write a .byte v

/-- `rd32 ADDR` (R87). -/
def rd32 (a : Word) : Event := .read a .word

/-- `rd16 ADDR` (R87). -/
def rd16 (a : Word) : Event := .read a .half

/-- `rd8 ADDR` (R87). -/
def rd8 (a : Word) : Event := .read a .byte

/-- `cmd OP`: `wr32 CMD, OP` (R88). -/
def asmCmd (w : Word) : List Event := [wr32 (Reg.addr .cmd) w]

/-- `wait`: reads of STATUS until bit 0 is 0. In an interleaving with k reads before the completion step, those k return
BUSY = 1 and the one after it returns BUSY = 0 (R88, R205). DESIGN CHOICE, log entry 11. -/
def asmWait (k : Nat) : List Event :=
  List.replicate k (rd32 (Reg.addr .status)) ++ [.engine, rd32 (Reg.addr .status)]

/-- `run OP`: `cmd OP` then `wait` (R88). -/
def asmRun (i : Instr) (k : Nat) : List Event := asmCmd (encode i) ++ asmWait k

/-- `grid W, H` (R88). -/
def asmGrid (w h : Word) : List Event :=
  [wr32 (Reg.addr .width) w, wr32 (Reg.addr .height) h, wr32 (Reg.addr .channels) 3]

/-- `clrerr`: `wr32 STATUS, 0x100` (R88). -/
def asmClrerr : List Event := [wr32 (Reg.addr .status) 0x100]

end Sys2Proof.Machine
end

