-- ==== Sys2Proof/Tests/Slice0.lean ====
section
/-! SUPPORT. The model's own tests: expected results are the spec's worked examples and vectors (95_test_vectors), cited at each;
and a witness for the hypotheses of each statement. -/

namespace Sys2Proof.Tests

open Sys2Proof.Machine

/-! ## Helpers -/

/-- A reset block with MAX_CHAN = 64 and MAX_PAY = 100, the sizes 95_test_vectors assumes at least. -/
def small : State := { State.reset with params := { maxChan := 64, maxPay := 100 } }

/-- A grid of w by h pixels of 3 channels, the image's first values, and a bit sequence. -/
def image (w h : Word) (chan : List Byte) (bits : List Bit) : State :=
  { small with
    width := w, height := h, channels := 3, bitlen := BitVec.ofNat 32 bits.length
    chan := chan.zipIdx.map fun e => (e.2, e.1), bits := bits.zipIdx.map fun e => (e.2, e.1) }

/-- The state a step, a command or an access answers. -/
def nextOf (o : Host.Outcome State Fault Refusal) : Option State :=
  match o with
  | .next s => some s
  | .fault _ => none
  | .refused _ => none

/-- The bus error a step, a command or an access answers. -/
def faultOf (o : Host.Outcome State Fault Refusal) : Option Fault :=
  match o with
  | .next _ => none
  | .fault f => some f
  | .refused _ => none

/-- What a test looks at in an answer. -/
def see {α : Type} (o : Host.Outcome State Fault Refusal) (f : State → α) : Option α := (nextOf o).map f

def chans (n : Nat) (s : State) : List Byte := (List.range n).map s.chanAt
def bitsOf (n : Nat) (s : State) : List Bit := (List.range n).map s.bitAt
def pays (n : Nat) (s : State) : List Byte := (List.range n).map s.payAt

/-! ## Decoding, encoding, well-formedness: the words are written out from 30_encoding R83 -/

theorem test_decode_nop : decode 0b00000000000000000000000000000000 = .ok .nop := rfl
theorem test_decode_pack : decode 0b00000000000000000000000000000001 = .ok .pack := rfl
theorem test_decode_encode : decode 0b00000000000000000000000000000010 = .ok .encode := rfl
theorem test_decode_decode : decode 0b00000000000000000000000000000011 = .ok .decode := rfl
theorem test_decode_unpack : decode 0b00000000000000000000000000000100 = .ok .unpack := rfl
/-- R83: the words of the opcode map, from the encoder. -/
theorem test_encode_words : [Instr.nop, .pack, .encode, .decode, .unpack].map encode = [0, 1, 2, 3, 4] := by decide
/-- R84, CT4 to CT6: a reserved OP, and reserved bits above a legal one. -/
theorem test_decode_illegal :
    decode 0xF = .error .reservedOp ∧ decode 0x12 = .error .reservedBits ∧ decode 0x80000001 = .error .reservedBits :=
  ⟨rfl, rfl, rfl⟩
theorem test_table_words : [0, 1, 2, 3, 4, 5].map (decodeTableWord 32) =
    [some .nop, some .pack, some .encode, some .decode, some .unpack, none] := by decide

theorem test_wf_word_rsvd : wordRsvdOk 0x12 = false ∧ wordRsvdOk 0x2 = true := by decide
theorem test_wf_word_op : wordOpOk 0x5 = false ∧ wordOpOk 0x4 = true := by decide
theorem test_wf_word : wordWf 0x12 = false ∧ wordWf 0x5 = false ∧ wordWf 0x2 = true := by decide
/-- R5, R6: MAX_CHAN ≥ 3, MAX_CHAN ≤ MAX_BITS, MAX_PAY ≥ 1 and MAX_BITS ≤ 2^28, each broken once. -/
theorem test_wf_params :
    Params.wf { maxChan := 2, maxPay := 1 } = false ∧ Params.wf { maxChan := 9, maxPay := 1 } = false ∧
    Params.wf { maxChan := 3, maxPay := 0 } = false ∧ Params.wf { maxChan := 3, maxPay := 2 ^ 25 + 1 } = false ∧
    Params.wf { maxChan := 8, maxPay := 1 } = true ∧ Params.wf { maxChan := 2 ^ 28, maxPay := 2 ^ 25 } = true := by decide
theorem test_wf_instr : [Instr.nop, .pack, .encode, .decode, .unpack].all Instr.wf = true := by decide

/-! ## Commands -/

/-- CT1: RESULT 1 is cleared to 0. -/
theorem test_nop_clears_result :
    see (exec .nop { small with status := ⟨true, false, 1, false⟩ }) (·.status.toWord) = some 0x002 := by decide
/-- CT2: BUSY_ERR is kept. -/
theorem test_nop_keeps_busyErr :
    see (exec .nop { small with status := ⟨true, false, 0, true⟩ }) (·.status.toWord) = some 0x102 := by decide

/-- PK2. -/
theorem test_pack_msb_first :
    see (exec .pack { small with bytelen := 2, pay := [(0, 0x80), (1, 0x01)] }) (fun t => (t.bitlen, t.status.toWord, bitsOf 16 t)) =
      some (16, 0x002, [1, 0, 0, 0, 0, 0, 0, 0, 0, 0, 0, 0, 0, 0, 0, 1]) := by decide
/-- PK5: BITS[8] keeps its value. -/
theorem test_pack_keeps_later_bits :
    see (exec .pack { small with bytelen := 1, pay := [(0, 0x01)], bits := [(8, 1)] }) (fun t => (t.bitlen, bitsOf 9 t)) =
      some (8, [0, 0, 0, 0, 0, 0, 0, 1, 1]) := by decide

/-- EN1 (R125): the pivot 128 increments, 0 is forced to 1 first. -/
theorem test_encode_pivot_and_zero :
    see (exec .encode (image 1 1 [128, 0, 77] [0, 1])) (fun t => (chans 3 t, t.status.toWord)) =
      some ([129, 2, 0], 0x002) := by decide
/-- EN3: one bit too many: nothing written, the report in bits. -/
theorem test_encode_capacity :
    see (exec .encode (image 1 1 [10, 20, 30] [1, 0, 1])) (fun t => (chans 3 t, t.reqBits, t.availBits, t.status.toWord)) =
      some ([10, 20, 30], 3, 2, 0x012) := by decide

/-- DE2: the stop at the first 0. -/
theorem test_decode_stops_at_zero :
    see (exec .decode (image 1 2 [2, 3, 0, 4, 0, 0] [])) (fun t => (t.bitlen, bitsOf 2 t, t.status.toWord)) =
      some (2, [1, 0], 0x002) := by decide
/-- DE5: no 0 in the stream. -/
theorem test_decode_malformed :
    see (exec .decode (image 1 1 [2, 4, 6] [])) (fun t => (t.bitlen, bitsOf 3 t, t.status.toWord)) =
      some (3, [1, 1, 1], 0x022) := by decide

/-- UN2: trailing 0111 dropped. -/
theorem test_unpack_truncates :
    see (exec .unpack (image 1 1 [] [1, 0, 1, 1, 0, 0, 1, 1, 0, 1, 1, 1])) (fun t => (t.bytelen, pays 1 t, t.status.toWord)) =
      some (1, [0xB3], 0x002) := by decide
/-- UN3: seven bits make no byte; PAY keeps its value. -/
theorem test_unpack_no_byte :
    see (exec .unpack { image 1 1 [] [1, 1, 1, 1, 1, 1, 1] with pay := [(0, 0x5A)] }) (fun t => (t.bytelen, pays 1 t)) =
      some (0, [0x5A]) := by decide

/-- AD1 to AD11 of 95_test_vectors §2.1. -/
theorem test_adjust_table :
    ([0, 1, 2, 126, 127, 128, 129, 130, 253, 254, 255] : List Byte).map (adjust · 1) =
      [2, 2, 2, 126, 128, 128, 128, 130, 252, 254, 254] ∧
    ([0, 1, 2, 126, 127, 128, 129, 130, 253, 254, 255] : List Byte).map (adjust · 0) =
      [1, 1, 3, 127, 127, 129, 129, 129, 253, 253, 255] := by decide

/-! ## The next step runs the placed word -/

theorem test_step_runs_placed_nop : see (step (small.withFetchWord 32 0)) (·.status.toWord) = some 0x002 := by decide
theorem test_step_runs_placed_pack : see (step (small.withFetchWord 32 1)) (·.status.toWord) = some 0x002 := by decide
/-- EN7: CHANNELS = 0 after reset. -/
theorem test_step_runs_placed_encode : see (step (small.withFetchWord 32 2)) (·.status.toWord) = some 0x032 := by decide
theorem test_step_runs_placed_decode : see (step (State.reset.withFetchWord 32 3)) (·.status.toWord) = some 0x032 := by decide
theorem test_step_runs_placed_unpack : see (step (State.reset.withFetchWord 32 4)) (·.status.toWord) = some 0x002 := by decide
/-- CT5: OP 2 with bit 4 set is ILLEGAL. -/
theorem test_step_runs_placed_illegal : see (step (State.reset.withFetchWord 32 0x12)) (·.status.toWord) = some 0x052 := by decide

/-! ## Host accesses (95_test_vectors §2.7, §2.8) -/

/-- BA3 with BA1, BA2. -/
theorem test_reset_reads :
    [Reg.id, .cmd, .capacity].map (fun r => see (memRead r.addr .word State.reset) (·.reads)) =
      [some [0x53544547], some [0], some [0xFFFFFFFF]] := by decide
/-- BA4. -/
theorem test_window_write_little_endian :
    see (memWrite (Buffer.addr .chan 4) .word 0x11223344 small) (·.chan) =
      some [(4, 0x44), (5, 0x33), (6, 0x22), (7, 0x11)] := by decide
/-- BA5. -/
theorem test_window_read_little_endian :
    see (memRead (Buffer.addr .chan 6) .half { small with chan := [(6, 0x22), (7, 0x11)] }) (·.reads) = some [0x1122] := by decide
/-- BA6. -/
theorem test_bits_write_lane :
    see (memWrite (Buffer.addr .bits 0) .word 0x03020100 small) (bitsOf 4) = some [0, 1, 0, 1] := by decide
/-- BA7. -/
theorem test_bits_read_lane :
    see (memRead (Buffer.addr .bits 0) .word { small with bits := [(0, 0), (1, 1), (2, 0), (3, 1)] }) (·.reads) =
      some [0x01000100] := by decide
/-- BA9 to BA12. -/
theorem test_bus_errors :
    [memRead (Buffer.addr .chan 1) .half small, memRead (Reg.addr .width) .half small, memRead (Reg.addr .status) .byte small,
      memWrite 0x2C .word 1 small, memRead (Buffer.addr .chan 62) .word small].map faultOf =
      [some (.busError 0x10000001), some (.busError 0x0C), some (.busError 0x08), some (.busError 0x2C),
        some (.busError 0x1000003E)] := by decide
/-- BA13: MAX_BITS + 1 is not stored. -/
theorem test_bitlen_warl :
    see (memWrite (Reg.addr .bitlen) .word 801 { small with bitlen := 7 }) (·.bitlen) = some 7 ∧
    see (memWrite (Reg.addr .bitlen) .word 800 { small with bitlen := 7 }) (·.bitlen) = some 800 := by decide
/-- BA15. -/
theorem test_capacity_read : see (memRead (Reg.addr .capacity) .word { small with width := 2, height := 3 }) (·.reads) = some [17] := by
  decide
/-- BA16. -/
theorem test_status_write_keeps :
    see (memWrite (Reg.addr .status) .word 0x0FF { small with status := ⟨false, true, 2, true⟩ }) (·.status.toWord) =
      some 0x122 := by decide
/-- HZ2, HZ3, HZ6: dropped, dropped, accepted. -/
theorem test_busy_writes :
    [memWrite (Buffer.addr .chan 0) .byte 9 (small.accept 1), memWrite (Reg.addr .cmd) .word 0 (small.accept 1),
      memWrite (Reg.addr .status) .word 0x100 ((small.accept 1).dropWrite)].map
        (fun o => see o fun t => (t.status.toWord, t.opl, t.chan)) =
      [some (0x101, 1, []), some (0x101, 1, []), some (0x001, 1, [])] := by decide
/-- HZ5: one value is returned and one draw is counted; the value itself is not tested. -/
theorem test_busy_read_is_counted :
    see (memRead (Buffer.addr .pay 0) .byte (small.accept 1)) (fun t => (t.draws, t.reads.length)) = some (1, 1) := by decide
/-- `grid W, H` of R88. -/
theorem test_asm_grid : asmGrid 4 4 = [wr32 0x0C 4, wr32 0x10 4, wr32 0x14 3] := by decide
/-- R196: a reset during PACK leaves BITS[8] and PAY, and counts one draw. -/
theorem test_reset_abandons :
    (fun t : State => (t.bitAt 8, t.payAt 0, t.bytelen, t.phase, t.draws))
      ({ small with bytelen := 1, pay := [(0, 3)], bits := [(8, 1)] }.accept 1).warmReset = (1, 3, 0, .idle, 1) := by decide

/-! ## Witnesses: states and operands that meet each statement's hypotheses -/

theorem small_inv : small.Inv :=
  ⟨by decide, rfl, rfl, rfl, rfl, rfl, rfl, by decide, by decide, by decide, by decide, by decide, by decide, by decide⟩

theorem illegal_word : ∀ i, decode 0x12 ≠ .ok i := fun i h => by cases i <;> cases h

theorem admits_last_register : MapAdmits small.params (0x28 : Word).toNat .word := .inl (by decide)
theorem admits_chan_last : MapAdmits small.params (0x1000003F : Word).toNat .byte :=
  .inr ⟨.chan, 0x10000000, 64, .inl ⟨rfl, rfl, rfl⟩, by decide⟩
theorem admits_chan_first : MapAdmits small.params (0x10000000 : Word).toNat .word :=
  .inr ⟨.chan, 0x10000000, 64, .inl ⟨rfl, rfl, rfl⟩, by decide⟩
theorem not_admitted : ¬ MapAdmits small.params (0x2C : Word).toNat .word := by
  rintro (h | ⟨b, base, len, (⟨-, rfl, -⟩ | ⟨-, rfl, -⟩ | ⟨-, rfl, -⟩), h, -⟩)
  · exact absurd h.1 (by decide)
  · exact absurd h (by decide)
  · exact absurd h (by decide)
  · exact absurd h (by decide)

/-- Each clause at its words: 16 (the first with a reserved bit), 0 to 4, 5 and 15; and a running state of either kind. -/
theorem witness_DecodingIsTotalByFields :
    (16 : Word).toNat / 16 ≠ 0 ∧ (0 : Word).toNat = 0 ∧ (1 : Word).toNat = 1 ∧ (2 : Word).toNat = 2 ∧ (3 : Word).toNat = 3 ∧
    (4 : Word).toNat = 4 ∧ 5 ≤ (5 : Word).toNat ∧ (15 : Word).toNat ≤ 15 ∧
    (small.accept 2).phase = .run ∧ decode (small.accept 2).opl = .ok .encode ∧
    decode (small.accept 0x12).opl = .error .reservedBits := ⟨by decide, rfl, rfl, rfl, rfl, rfl, by decide, by decide, rfl, rfl, rfl⟩

theorem witness_StepRunsDecodedCommand :
    ((small.accept 1).phase = .run ∧ decode (small.accept 1).opl = .ok .pack ∧ (small.accept 1).events = [] ∧
      ({ small.accept 1 with events := [.engine] } : State).events = [.engine]) ∧
    ((small.accept 0x12).phase = .run ∧ decode (small.accept 0x12).opl = .error .reservedBits ∧
      (small.accept 0x12).events = [] ∧ ({ small.accept 0x12 with events := [.engine] } : State).events = [.engine]) ∧
    (small.phase = .idle ∧ small.events = [] ∧ ({ small with events := [.engine] } : State).events = [.engine]) ∧
    ({ small with events := [.read 0 .word] } : State).events = [.read 0 .word] ∧
    ({ small with events := [.write 4 .word 0] } : State).events = [.write 4 .word 0] ∧
    ({ small.accept 1 with events := [.reset] } : State).events = [.reset] ∧
    ({ small.accept 1 with events := [.powerOn] } : State).events = [.powerOn] :=
  ⟨⟨rfl, rfl, rfl, rfl⟩, ⟨rfl, rfl, rfl, rfl⟩, ⟨rfl, rfl, rfl⟩, rfl, rfl, rfl, rfl⟩

theorem witness_CmdWriteStartsOneCommand :
    (small.status.busy = false ∧ decode 0 = .ok .nop ∧ memWrite 0x04 .word 0 small = .next (small.accept 0)) ∧
    (small.accept 0).status.busy = true := ⟨⟨rfl, rfl, rfl⟩, rfl⟩

theorem witness_NopOnlyCompletes :
    small.status.busy = false := by decide

theorem witness_IllegalWordCompletesWithCodeFive :
    small.status.busy = false ∧ (∀ i, decode 0x12 ≠ .ok i) := ⟨rfl, illegal_word⟩

theorem witness_RunningCommandFinishes : (small.accept 2).events = [] ∧ (small.accept 2).phase = .run := by decide

theorem witness_OnlyHostAccessesFault :
    step { small with events := [.read 0x2C .word] } = .fault (.busError 0x2C) := rfl

/-- An empty grid, and the largest here, 64 ≥ 3·7·3. -/
theorem witness_CapacityReadsExactly :
    small.width.toNat * small.height.toNat = 0 ∧ small.params.Legal ∧
    1 ≤ (image 7 3 [] []).width.toNat * (image 7 3 [] []).height.toNat ∧
    3 * (image 7 3 [] []).width.toNat * (image 7 3 [] []).height.toNat ≤ (image 7 3 [] []).params.maxChan := by decide

theorem witness_RegisterWritesFollowTheMap :
    small.status.busy = false ∧ (800 : Word).toNat ≤ 8 * small.params.maxPay ∧ ¬ (801 : Word).toNat ≤ 8 * small.params.maxPay ∧
    (100 : Word).toNat ≤ small.params.maxPay ∧ ¬ (101 : Word).toNat ≤ small.params.maxPay ∧
    (small.accept 0).status.busy = true := by decide

/-- Every reserved bit set, against none. -/
theorem witness_ReadOnlyWritesAreIgnored : (0xFFFFFE0C : Word) &&& 0x1F3 = 0 &&& 0x1F3 := by decide

theorem witness_BusErrorsAreExactlyTheUnmapped :
    MapAdmits small.params (0x28 : Word).toNat .word ∧ MapAdmits small.params (0x1000003F : Word).toNat .byte ∧
    ¬ MapAdmits small.params (0x2C : Word).toNat .word := ⟨admits_last_register, admits_chan_last, not_admitted⟩

/-- The last word of each window: for the reads and for the writes. -/
theorem witness_WindowAccess :
    small.params.Legal ∧ small.status.busy = false ∧
    (WindowOf small.params .chan 0x10000000 64 ∧ 0x10000000 ≤ (0x1000003C : Word).toNat ∧
      (0x1000003C : Word).toNat + Size.bytes .word ≤ 0x10000000 + 64 ∧ (0x1000003C : Word).toNat % Size.bytes .word = 0) ∧
    (WindowOf small.params .bits 0x20000000 800 ∧ 0x20000000 ≤ (0x2000031E : Word).toNat ∧
      (0x2000031E : Word).toNat + Size.bytes .half ≤ 0x20000000 + 800 ∧ (0x2000031E : Word).toNat % Size.bytes .half = 0) ∧
    (WindowOf small.params .pay 0x30000000 100 ∧ 0x30000000 ≤ (0x30000063 : Word).toNat ∧
      (0x30000063 : Word).toNat + Size.bytes .byte ≤ 0x30000000 + 100 ∧ (0x30000063 : Word).toNat % Size.bytes .byte = 0) := by
  refine ⟨by decide, rfl, ⟨.inl ⟨rfl, rfl, rfl⟩, by decide⟩, ⟨.inr (.inl ⟨rfl, rfl, rfl⟩), by decide⟩,
    ⟨.inr (.inr ⟨rfl, rfl, rfl⟩), by decide⟩⟩

theorem witness_BusyAccess :
    (small.accept 1).status.busy = true ∧ MapAdmits (small.accept 1).params (0x10000000 : Word).toNat .word ∧
    0x2C ≤ (0x10000000 : Word).toNat := ⟨rfl, admits_chan_first, by decide⟩

theorem witness_BusErrIsSetAndCleared :
    (∃ t, step { small.accept 1 with events := [.write 4 .word 0] } = .next t ∧
      ({ small.accept 1 with events := [.write 4 .word 0] } : State).status.busyErr = false ∧ t.status.busyErr = true) ∧
    (∃ t, step { small.dropWrite with events := [.write 8 .word 0x100] } = .next t ∧
      ({ small.dropWrite with events := [.write 8 .word 0x100] } : State).status.busyErr = true ∧ t.status.busyErr = false) ∧
    (0x100 : Word).getLsbD 8 = true ∧ (0xFF : Word).getLsbD 8 = false :=
  ⟨⟨_, rfl, rfl, rfl⟩, ⟨_, rfl, rfl, rfl⟩, by decide, by decide⟩

/-- No byte, and every byte of PAY. -/
theorem witness_PackSerializesThePayload :
    small.params.Legal ∧ small.bytelen.toNat ≤ small.params.maxPay ∧
    ({ small with bytelen := 100 } : State).bytelen.toNat ≤ small.params.maxPay ∧ 99 < (100 : Word).toNat := by decide

/-- Each row of R115 at both ends of its range. -/
theorem witness_AdjustFollowsTheCaseTable :
    (∀ v ∈ ([1, 127] : List Byte), v.toNat % 2 = 1 ∧ v.toNat ≤ 127) ∧ (∀ v ∈ ([129, 255] : List Byte), v.toNat % 2 = 1 ∧ 129 ≤ v.toNat) ∧
    (∀ v ∈ ([2, 126] : List Byte), v.toNat % 2 = 0 ∧ 2 ≤ v.toNat ∧ v.toNat ≤ 126) ∧
    (∀ v ∈ ([130, 254] : List Byte), v.toNat % 2 = 0 ∧ 130 ≤ v.toNat) := by decide

/-- A grid of N = 3: BITLEN 0 and BITLEN = capacity, for the statements of a successful ENCODE and its decoding. -/
theorem witness_EncodeSucceeds :
    ∀ s ∈ [image 1 1 [5, 6, 7] [], image 1 1 [10, 20, 30] [1, 0]],
      s.channels = 3 ∧ 3 * s.width.toNat * s.height.toNat ≤ s.params.maxChan ∧
      s.bitlen.toNat + 1 ≤ 3 * s.width.toNat * s.height.toNat := by decide

theorem witness_EncodedParitiesAndFirstZero :
    ∃ t, exec .encode (image 1 1 [10, 20, 30] [1, 0]) = .next t ∧ t.status.result = 0 := ⟨_, rfl, by decide⟩

theorem witness_GridIsRefusedBeforeAnyWrite :
    ({ image 1 1 [] [] with channels := 4 } : State).channels ≠ 3 ∧
    (image 22 1 [] []).channels = 3 ∧ (image 22 1 [] []).params.maxChan < 3 * (image 22 1 [] []).width.toNat * (image 22 1 [] []).height.toNat := by
  decide

theorem witness_CapacityExceededReportsOnly :
    (image 1 1 [] [1, 0, 1]).channels = 3 ∧
    3 * (image 1 1 [] [1, 0, 1]).width.toNat * (image 1 1 [] [1, 0, 1]).height.toNat ≤ (image 1 1 [] [1, 0, 1]).params.maxChan ∧
    ((3 * (image 1 1 [] [1, 0, 1]).width.toNat * (image 1 1 [] [1, 0, 1]).height.toNat : Nat) : Int) - 1 <
      ((image 1 1 [] [1, 0, 1]).bitlen.toNat : Int) := by decide

theorem witness_CapacityBoundaryIsExact :
    (∀ s ∈ [image 1 1 [] [1, 0], image 1 1 [] [1, 0, 1], image 0 5 [] []],
      s.channels = 3 ∧ 3 * s.width.toNat * s.height.toNat ≤ s.params.maxChan) ∧
    (image 1 1 [] [1, 0]).bitlen.toNat + 1 = 3 * (image 1 1 [] [1, 0]).width.toNat * (image 1 1 [] [1, 0]).height.toNat ∧
    (image 1 1 [] [1, 0, 1]).bitlen.toNat = 3 * (image 1 1 [] [1, 0, 1]).width.toNat * (image 1 1 [] [1, 0, 1]).height.toNat ∧
    1 ≤ (image 1 1 [] [1, 0, 1]).bitlen.toNat ∧ (image 0 5 [] []).width.toNat * (image 0 5 [] []).height.toNat = 0 := by decide

/-- The sentinel at the last position of the stream, and at the first. -/
theorem witness_DecodeStopsAtTheSentinel :
    ∀ e ∈ [(image 1 1 [129, 2, 0] [], 2), (image 1 1 [0, 7, 8] [], 0)],
      e.1.params.Legal ∧ e.1.channels = 3 ∧ 3 * e.1.width.toNat * e.1.height.toNat ≤ e.1.params.maxChan ∧
      e.2 < 3 * e.1.width.toNat * e.1.height.toNat ∧ e.1.chanAt e.2 = 0 ∧ ∀ q, q < e.2 → e.1.chanAt q ≠ 0 := by decide

/-- A stream of three nonzero values, and the empty stream. -/
theorem witness_DecodeWithoutSentinelIsMalformed :
    ∀ s ∈ [image 1 1 [2, 4, 6] [], image 0 0 [] []],
      s.params.Legal ∧ s.channels = 3 ∧ 3 * s.width.toNat * s.height.toNat ≤ s.params.maxChan ∧
      ∀ q, q < 3 * s.width.toNat * s.height.toNat → s.chanAt q ≠ 0 := by decide

theorem witness_RefusedCommandsWriteNothing :
    (∃ t, exec .encode small = .next t ∧ t.status.result ≠ 0 ∧ t.status.result ≠ 2 ∧ t.status.result ≠ 1) ∧
    (∃ t, exec .encode (image 1 1 [] [1, 0, 1]) = .next t ∧ t.status.result ≠ 0 ∧ t.status.result ≠ 2) :=
  ⟨⟨_, rfl, by decide⟩, ⟨_, rfl, by decide⟩⟩

/-- Two images that differ after the sentinel at 2, and the same image as a whole. -/
theorem witness_DecodeReadsOnlyUpToTheSentinel :
    (∀ q, q < 3 → (image 2 1 [2, 3, 0, 4, 5, 6] []).chanAt q = (image 2 1 [2, 3, 0, 9, 0, 7] []).chanAt q) ∧
    3 ≤ 3 * (image 2 1 [2, 3, 0, 9, 0, 7] []).width.toNat * (image 2 1 [2, 3, 0, 9, 0, 7] []).height.toNat ∧
    (image 2 1 [2, 3, 0, 9, 0, 7] []).chanAt (3 - 1) = 0 ∧
    (image 2 1 [2, 3, 0, 4, 5, 6] []).params = (image 2 1 [2, 3, 0, 9, 0, 7] []).params ∧
    (∀ i, (image 2 1 [2, 3, 0, 4, 5, 6] []).bitAt i = (image 2 1 [2, 3, 0, 9, 0, 7] []).bitAt i) :=
  ⟨by decide, by decide, by decide, rfl, fun _ => rfl⟩

theorem witness_UnpackUndoesPack :
    ∃ t, exec .pack { small with bytelen := 1, pay := [(0, 0xA5)] } = .next t ∧
      ∃ v : State, v.bitlen = t.bitlen ∧ ∀ i, i < t.bitlen.toNat → v.bitAt i = t.bitAt i := ⟨_, rfl, _, rfl, fun _ _ => rfl⟩

theorem witness_DecodeUndoesEncode :
    ∃ t, exec .encode (image 1 1 [10, 20, 30] [1, 0]) = .next t ∧ ∃ v : State, v.width = 1 ∧ v.height = 1 ∧ v.channels = 3 ∧
      v.params = small.params ∧ ∀ i, i < 3 → v.chanAt i = t.chanAt i :=
  ⟨_, rfl, { image 1 1 [] [] with chan := [(0, 10), (1, 21), (2, 0)] }, rfl, rfl, rfl, rfl, by decide⟩

/-- E1's numbers: two bytes in a 4 by 4 image. -/
theorem witness_PayloadSurvivesTheRoundTrip :
    let s : State := { image 4 4 [] [] with bytelen := 2, pay := [(0, 0x00), (1, 0xFF)] }
    s.params.Legal ∧ s.bytelen.toNat ≤ s.params.maxPay ∧ s.channels = 3 ∧
    3 * s.width.toNat * s.height.toNat ≤ s.params.maxChan ∧ 8 * s.bytelen.toNat + 1 ≤ 3 * s.width.toNat * s.height.toNat := by decide

theorem witness_CompletionStepIsItsBeats : (small.accept 3).phase = .run ∧ (small.accept 3).pos = 0 := by decide

theorem witness_StepKeepsTheStateLegal : small.Inv ∧ step { small with events := [] } = .next small := ⟨small_inv, rfl⟩

theorem witness_ParametersNeverChange :
    ∃ t, step { small with events := [.powerOn] } = .next t ∧ t.powerOns ≠ ({ small with events := [.powerOn] } : State).powerOns :=
  ⟨_, rfl, by decide⟩

/-- Reset of an idle block, and in the middle of each command that writes a buffer. -/
theorem witness_ResetKeepsWhatNoCommandWrites :
    (∃ t, step { small with events := [.reset] } = .next t ∧ small.phase = .idle) ∧
    (∃ t, step { small.accept 1 with events := [.reset] } = .next t ∧ decode (small.accept 1).opl = .ok .pack ∧
      8 * (small.accept 1).bytelen.toNat ≤ 0) ∧
    (∃ t, step { small.accept 2 with events := [.reset] } = .next t ∧ decode (small.accept 2).opl = .ok .encode ∧
      (small.accept 2).bitlen.toNat < 1) ∧
    (∃ t, step { (image 1 1 [2, 0, 3] []).accept 3 with events := [.reset] } = .next t ∧
      decode ((image 1 1 [2, 0, 3] []).accept 3).opl = .ok .decode ∧ ((image 1 1 [2, 0, 3] []).accept 3).chanAt 1 = 0) ∧
    (∃ t, step { small.accept 4 with events := [.reset] } = .next t ∧ decode (small.accept 4).opl = .ok .unpack ∧
      (small.accept 4).bitlen.toNat / 8 ≤ 0) :=
  ⟨⟨_, rfl, rfl⟩, ⟨_, rfl, rfl, by decide⟩, ⟨_, rfl, rfl, by decide⟩, ⟨_, rfl, rfl, by decide⟩, ⟨_, rfl, rfl, by decide⟩⟩

/-- An accepted CMD write sets BUSY, clears DONE and changes OPL; a completion clears BUSY, sets DONE and changes RESULT. -/
theorem witness_BusyDoneResultOplChange :
    (∃ t, step { small with status := ⟨false, true, 0, false⟩, events := [.write 4 .word 2] } = .next t ∧
      t.status.busy = true ∧ t.status.done = false ∧ t.opl ≠ small.opl) ∧
    (∃ t, step (small.accept 2) = .next t ∧ (small.accept 2).status.busy = true ∧ t.status.busy = false ∧
      (small.accept 2).status.done = false ∧ t.status.done = true ∧ t.status.result ≠ (small.accept 2).status.result) :=
  ⟨⟨_, rfl, by decide⟩, ⟨_, rfl, by decide⟩⟩

theorem witness_ReportIsWrittenOnlyByCapacityExceeded :
    ∃ t, step ((image 1 1 [] [1, 0, 1]).accept 2) = .next t ∧ t.reqBits ≠ ((image 1 1 [] [1, 0, 1]).accept 2).reqBits :=
  ⟨_, rfl, by decide⟩

theorem witness_HostCannotDisturbARunningCommand :
    (∃ t, step { small.accept 1 with events := [.read 8 .word] } = .next t ∧ (small.accept 1).status.busy = true) ∧
    (∃ t, step { small.accept 1 with events := [.write 0x18 .word 5] } = .next t ∧ (small.accept 1).status.busy = true) :=
  ⟨⟨_, rfl, rfl⟩, ⟨_, rfl, rfl⟩⟩

theorem witness_ReadsHaveNoSideEffect : (∃ t, memRead 0 .word small = .next t) ∧ small.status.busy = false := ⟨⟨_, rfl⟩, rfl⟩

end Sys2Proof.Tests
end

section
/-! SUPPORT. The statements of the scope: every command completes, and no step changes the parameters. Each rests on one frame
lemma per kind of step: what a command, a host write and a reset leave as it was. -/

namespace Sys2Proof.Machine

/-! ## What a command can leave -/

/-- The conditions a command can complete with (R170). -/
def CommandRaises (i : Instr) (c : Code) : Prop :=
  c = .ok ∨ (i = .encode ∧ c = .capacityExceeded) ∨ (i = .decode ∧ c = .malformedEncoding) ∨
    ((i = .encode ∨ i = .decode) ∧ (c = .unsupportedPixelFormat ∨ c = .gridTooLarge))

/-- t differs from s at most in the outputs of a command before it completes: the buffers, POS, BITLEN, BYTELEN and the
capacity report (R82). Every other field is as it was. -/
structure State.SameButOutputs (s t : State) : Prop where
  status : t.status = s.status
  width : t.width = s.width
  height : t.height = s.height
  channels : t.channels = s.channels
  phase : t.phase = s.phase
  opl : t.opl = s.opl
  params : t.params = s.params
  powerOns : t.powerOns = s.powerOns
  draws : t.draws = s.draws
  events : t.events = s.events
  reads : t.reads = s.reads

/-- Whatever is stored in the outputs, the rest of the state is as it was. -/
theorem State.sameButOutputs_update (s : State) (c : Memory 8) (b : Memory 1) (p : Memory 8) (pos : Nat)
    (bitlen bytelen required available : Word) :
    s.SameButOutputs { s with
      chan := c, bits := b, pay := p, pos := pos, bitlen := bitlen, bytelen := bytelen
      reqBits := required, availBits := available } :=
  ⟨rfl, rfl, rfl, rfl, rfl, rfl, rfl, rfl, rfl, rfl, rfl⟩

/-- A grid is refused with one of the two codes that ENCODE and DECODE share (R176, R177). -/
theorem State.gridRefusal_code {s : State} {c : Code} (h : s.gridRefusal = some c) :
    c = .unsupportedPixelFormat ∨ c = .gridTooLarge := by
  rcases (s.gridRefusal_eq_some c).1 h with ⟨-, hc⟩ | ⟨-, -, hc⟩
  · exact .inl hc
  · exact .inr hc

/-- Every command, in every state, writes its outputs and completes with a code it can raise (R13, R170). -/
theorem exec_completes (i : Instr) (s : State) :
    ∃ u c, exec i s = .next (State.complete u c) ∧ CommandRaises i c ∧ s.SameButOutputs u := by
  cases i with
  | nop => exact ⟨s, .ok, exec_nop s, .inl rfl, s.sameButOutputs_update ..⟩
  | pack =>
    obtain ⟨_, h, -⟩ := exec_pack s
    exact ⟨_, .ok, h, .inl rfl, s.sameButOutputs_update ..⟩
  | encode =>
    cases hg : s.gridRefusal with
    | some c =>
      exact ⟨s, c, exec_encode_refused hg, .inr (.inr (.inr ⟨.inl rfl, State.gridRefusal_code hg⟩)), s.sameButOutputs_update ..⟩
    | none =>
      rcases lt_or_ge s.capacity (s.bitlen.toNat : Int) with hc | hc
      · exact ⟨_, .capacityExceeded, exec_encode_exceeded hg hc, .inr (.inl ⟨rfl, rfl⟩), s.sameButOutputs_update ..⟩
      · obtain ⟨_, h, -⟩ := exec_encode_ok hg hc
        exact ⟨_, .ok, h, .inl rfl, s.sameButOutputs_update ..⟩
  | decode =>
    cases hg : s.gridRefusal with
    | some c =>
      exact ⟨s, c, exec_decode_refused hg, .inr (.inr (.inr ⟨.inr rfl, State.gridRefusal_code hg⟩)), s.sameButOutputs_update ..⟩
    | none =>
      obtain ⟨_, h, -⟩ := exec_decode_run hg
      refine ⟨_, _, h, ?_, s.sameButOutputs_update ..⟩
      split
      · exact .inl rfl
      · exact .inr (.inr (.inl ⟨rfl, rfl⟩))
  | unpack =>
    obtain ⟨_, h, -⟩ := exec_unpack s
    exact ⟨_, .ok, h, .inl rfl, s.sameButOutputs_update ..⟩

/-- The codes of R170 as RESULT shows them. -/
theorem CommandRaises.toBits {i : Instr} {c : Code} (h : CommandRaises i c) :
    c.toBits = 0 ∨ (i = .encode ∧ c.toBits = 1) ∨ (i = .decode ∧ c.toBits = 2) ∨
      ((i = .encode ∨ i = .decode) ∧ (c.toBits = 3 ∨ c.toBits = 4)) := by
  rcases h with rfl | ⟨hi, rfl⟩ | ⟨hi, rfl⟩ | ⟨hi, rfl | rfl⟩
  · exact .inl rfl
  · exact .inr (.inl ⟨hi, rfl⟩)
  · exact .inr (.inr (.inl ⟨hi, rfl⟩))
  · exact .inr (.inr (.inr ⟨hi, .inl rfl⟩))
  · exact .inr (.inr (.inr ⟨hi, .inr rfl⟩))

/-! ## The parameters and the number of power-ons, by kind of step -/

/-- A command changes neither the parameters nor the number of power-ons. -/
theorem exec_params_powerOns {i : Instr} {s t : State} (h : exec i s = .next t) :
    t.params = s.params ∧ t.powerOns = s.powerOns := by
  obtain ⟨u, c, hu, -, hs⟩ := exec_completes i s
  obtain rfl := Host.Outcome.next.inj (h.symm.trans hu)
  exact ⟨hs.params, hs.powerOns⟩

/-- A host read changes neither the parameters nor the number of power-ons. -/
theorem memRead_params_powerOns {a : Word} {n : Size} {s t : State} (h : memRead a n s = .next t) :
    t.params = s.params ∧ t.powerOns = s.powerOns := by
  rw [memRead_frame h]
  exact ⟨rfl, rfl⟩

/-- A host write changes neither the parameters nor the number of power-ons. -/
theorem memWrite_params_powerOns {a : Word} {n : Size} {v : Word} {s t : State} (h : memWrite a n v s = .next t) :
    t.params = s.params ∧ t.powerOns = s.powerOns := by
  rcases memWrite_form h with ⟨-, rfl⟩ | ⟨-, -, rfl⟩ | ⟨-, -, -, rfl⟩ | ⟨-, ⟨_, _, _, ht⟩, -⟩ | rfl | ⟨-, b, i, -, rfl⟩
  · exact ⟨rfl, rfl⟩
  · exact ⟨rfl, rfl⟩
  · exact ⟨rfl, rfl⟩
  · rw [ht]
    exact ⟨rfl, rfl⟩
  · exact ⟨rfl, rfl⟩
  · obtain ⟨_, _, _, hw, -⟩ := s.writeWindow_form b i n v
    rw [hw]
    exact ⟨rfl, rfl⟩

/-- A reset that is not a power-on changes neither the parameters nor the number of power-ons (R198). -/
theorem State.warmReset_params_powerOns (s : State) :
    s.warmReset.params = s.params ∧ s.warmReset.powerOns = s.powerOns := by
  obtain ⟨_, _, _, _, h, -⟩ := s.abandonRunning_form
  rw [State.warmReset, h]
  exact ⟨rfl, rfl⟩

/-- A step keeps the parameters, and keeps the number of power-ons unless it performs one. -/
theorem step_params_powerOns {s t : State} (h : step s = .next t) :
    t.params = s.params ∧ (t.powerOns = s.powerOns ∨ s.events.head? = some .powerOn) := by
  rcases step_cases h with ⟨-, -, rfl⟩ | ⟨-, -, i, -, he⟩ | ⟨-, -, -, rfl⟩ | ⟨a, n, -, hr⟩ | ⟨a, n, v, -, hw⟩ |
    ⟨-, rfl⟩ | ⟨hp, rfl⟩
  · exact ⟨rfl, .inl rfl⟩
  · exact (exec_params_powerOns he).imp_right .inl
  · exact ⟨rfl, .inl rfl⟩
  · exact (memRead_params_powerOns hr).imp_right .inl
  · exact (memWrite_params_powerOns hw).imp_right .inl
  · exact (State.warmReset_params_powerOns _).imp_right .inl
  · exact ⟨rfl, .inr hp⟩

/-! ## The statements -/

/-- Settles O8: by `exec_completes` the next state is a completion, of a state that shares every field named here with s. -/
theorem everyCommandCompletes : Obligations.EveryCommandCompletes := by
  intro i s
  obtain ⟨u, c, hu, hc, hs⟩ := exec_completes i s
  refine ⟨u.complete c, hu, ?_, rfl, hc.toBits, hs.opl, hs.width, hs.height, hs.channels, hs.params, hs.powerOns, hs.draws,
    hs.events, hs.reads⟩
  rw [State.complete_status, hs.status]

/-- Settles O42, by the case of each kind of step. -/
theorem parametersNeverChange : Obligations.ParametersNeverChange := by
  intro s t h
  obtain ⟨hparams, hpowerOns⟩ := step_params_powerOns h
  exact ⟨hparams, hpowerOns.resolve_left⟩

end Sys2Proof.Machine
end

section
/-! SUPPORT. Every step keeps a legal state legal. The part of legality that does not speak of the engine, `State.InBounds`, is
kept by every store of a command and of an abandoned command; a completion or a reset of such a state is legal. -/

namespace Sys2Proof.Machine

/-- Legality (`State.Inv`) but for STATUS and PHASE: the parameters, the form and the bounds of the buffers, BITLEN, BYTELEN and
POS. It holds of the outputs of a command that has not completed yet, whose POS has left 0 while PHASE is RUN. -/
structure State.InBounds (s : State) : Prop where
  params : s.params.Legal
  chanForm : Memory.wf s.chan = true
  bitsForm : Memory.wf s.bits = true
  payForm : Memory.wf s.pay = true
  chanInside : Memory.below s.params.maxChan s.chan = true
  bitsInside : Memory.below s.params.maxBits s.bits = true
  payInside : Memory.below s.params.maxPay s.pay = true
  bitlenLegal : s.bitlen.toNat ≤ s.params.maxBits
  bytelenLegal : s.bytelen.toNat ≤ s.params.maxPay
  posRange : s.pos ≤ s.params.maxBits

theorem State.Inv.inBounds {s : State} (h : s.Inv) : s.InBounds := { h with }

/-- The codes of R170 end at 5. -/
theorem Code.toBits_le (c : Code) : c.toBits.toNat ≤ 5 := by cases c <;> decide

/-- ENCODE's sentinel fits CHAN, when the checks pass (R111). -/
theorem State.bitlen_lt_maxChan {s : State} (hg : s.gridRefusal = none)
    (hc : (s.bitlen.toNat : Int) ≤ s.capacity) : s.bitlen.toNat < s.params.maxChan := by
  have hn := (s.gridRefusal_eq_none.1 hg).2
  have hN : (s.bitlen.toNat : Int) ≤ (s.streamLength : Int) - 1 := hc
  omega

namespace State.InBounds

variable {s : State}

/-! ## Updates of the outputs -/

theorem withChan (h : s.InBounds) {m : Memory 8} (hw : Memory.wf m = true)
    (hb : Memory.below s.params.maxChan m = true) : State.InBounds { s with chan := m } :=
  { h with chanForm := hw, chanInside := hb }

theorem withBits (h : s.InBounds) {m : Memory 1} (hw : Memory.wf m = true)
    (hb : Memory.below s.params.maxBits m = true) : State.InBounds { s with bits := m } :=
  { h with bitsForm := hw, bitsInside := hb }

theorem withPay (h : s.InBounds) {m : Memory 8} (hw : Memory.wf m = true)
    (hb : Memory.below s.params.maxPay m = true) : State.InBounds { s with pay := m } :=
  { h with payForm := hw, payInside := hb }

theorem setPos (h : s.InBounds) {n : Nat} (hn : n ≤ s.params.maxBits) : (s.setPos n).InBounds :=
  { h with posRange := hn }

theorem setBitlen (h : s.InBounds) {n : Nat} (hn : n ≤ s.params.maxBits) : (s.setBitlen n).InBounds :=
  { h with bitlenLegal := (BitVec.toNat_ofNat n 32).le.trans ((Nat.mod_le _ _).trans hn) }

theorem setBytelen (h : s.InBounds) {n : Nat} (hn : n ≤ s.params.maxPay) : (s.setBytelen n).InBounds :=
  { h with bytelenLegal := (BitVec.toNat_ofNat n 32).le.trans ((Nat.mod_le _ _).trans hn) }

theorem setReport (h : s.InBounds) (required available : Word) : (s.setReport required available).InBounds := { h with }

theorem nextDraw (h : s.InBounds) : s.nextDraw.InBounds := { h with }

/-- Power-on lists nothing, so nothing out of form or out of bounds (R198). -/
theorem clearBuffers (h : s.InBounds) : s.clearBuffers.InBounds :=
  { h with chanForm := rfl, bitsForm := rfl, payForm := rfl, chanInside := rfl, bitsInside := rfl, payInside := rfl }

/-! ## The end of a command, and reset -/

/-- A completion leaves the engine idle, with a code of R170. -/
theorem complete (h : s.InBounds) (c : Code) : (s.complete c).Inv :=
  { h with
    phaseBusy := by simp
    notDone := by simp
    resultCode := c.toBits_le
    posStart := by simp }

/-- Reset leaves the engine idle and every length 0 (R195). -/
theorem clearRegs (h : s.InBounds) : s.clearRegs.Inv :=
  { h with
    bitlenLegal := Nat.zero_le _
    bytelenLegal := Nat.zero_le _
    phaseBusy := by simp
    notDone := by simp
    resultCode := Nat.zero_le _
    posRange := Nat.zero_le _
    posStart := by simp }

/-! ## How far a command writes -/

/-- PACK's bits fit BITS, since BYTELEN is legal (R101). -/
theorem packedBits_le (h : s.InBounds) : 8 * s.bytelen.toNat ≤ s.params.maxBits :=
  Nat.mul_le_mul_left 8 h.bytelenLegal

/-- UNPACK's whole bytes fit PAY, since BITLEN is legal (R146). -/
theorem unpackedBytes_le (h : s.InBounds) : s.bitlen.toNat / 8 ≤ s.params.maxPay := by
  have hb : s.bitlen.toNat ≤ 8 * s.params.maxPay := h.bitlenLegal
  omega

/-- The stream of an admitted grid is no longer than BITS (R5, R6, R177). -/
theorem streamLength_le (h : s.InBounds) (hg : s.gridRefusal = none) : s.streamLength ≤ s.params.maxBits := by
  obtain ⟨-, hchan, -⟩ := h.params
  exact (s.gridRefusal_eq_none.1 hg).2.trans hchan

/-- DECODE stops within BITS (R131). -/
theorem stop_le (h : s.InBounds) (hg : s.gridRefusal = none) : s.stopFrom s.streamLength 0 ≤ s.params.maxBits := by
  obtain ⟨-, hstop, -⟩ := s.stopFrom_spec s.streamLength 0
  have hN := h.streamLength_le hg
  omega

/-! ## An abandoned command -/

theorem forgetChan (h : s.InBounds) {n : Nat} (hn : n ≤ s.params.maxChan) : (s.forgetChan n).InBounds := by
  obtain ⟨m, hm, hw, hb⟩ := s.forgetChan_form n
  rw [hm]
  exact (h.withChan (hw h.chanForm) (hb _ hn h.chanInside)).nextDraw

theorem forgetBits (h : s.InBounds) {n : Nat} (hn : n ≤ s.params.maxBits) : (s.forgetBits n).InBounds := by
  obtain ⟨m, hm, hw, hb⟩ := s.forgetBits_form n
  rw [hm]
  exact (h.withBits (hw h.bitsForm) (hb _ hn h.bitsInside)).nextDraw

theorem forgetPay (h : s.InBounds) {n : Nat} (hn : n ≤ s.params.maxPay) : (s.forgetPay n).InBounds := by
  obtain ⟨m, hm, hw, hb⟩ := s.forgetPay_form n
  rw [hm]
  exact (h.withPay (hw h.payForm) (hb _ hn h.payInside)).nextDraw

/-- An abandoned command forgets entries of its output buffer only (R196). -/
theorem abandon (h : s.InBounds) (i : Instr) : (s.abandon i).InBounds := by
  cases i with
  | nop => exact h
  | pack => exact h.forgetBits h.packedBits_le
  | encode =>
    simp only [State.abandon]
    split
    · next hc =>
      rw [Bool.and_eq_true, Option.isNone_iff_eq_none, decide_eq_true_eq] at hc
      exact h.forgetChan (State.bitlen_lt_maxChan hc.1 hc.2)
    · exact h
  | decode =>
    simp only [State.abandon]
    split
    · next hg => exact h.forgetBits (h.stop_le (Option.isNone_iff_eq_none.1 hg))
    · exact h
  | unpack => exact h.forgetPay h.unpackedBytes_le

theorem abandonRunning (h : s.InBounds) : s.abandonRunning.InBounds := by
  unfold State.abandonRunning
  split
  · exact h
  · split
    · exact h.abandon _
    · exact h

end State.InBounds

/-! ## Each kind of step -/

/-- Every command completes, of a state that is still in bounds. -/
theorem exec_completes_inBounds {s : State} (h : s.InBounds) (i : Instr) :
    ∃ u c, exec i s = .next (State.complete u c) ∧ u.InBounds := by
  cases i with
  | nop => exact ⟨s, .ok, exec_nop s, h⟩
  | pack =>
    obtain ⟨m, hm, -, hw, hb⟩ := exec_pack s
    have hn := h.packedBits_le
    exact ⟨_, _, hm, ((h.withBits (hw h.bitsForm) (hb _ hn h.bitsInside)).setPos hn).setBitlen hn⟩
  | encode =>
    cases hg : s.gridRefusal with
    | some c => exact ⟨s, c, exec_encode_refused hg, h⟩
    | none =>
      rcases lt_or_ge s.capacity (s.bitlen.toNat : Int) with hc | hc
      · exact ⟨_, _, exec_encode_exceeded hg hc, h.setReport _ _⟩
      · obtain ⟨m, hm, -, hw, hb⟩ := exec_encode_ok hg hc
        have hn := State.bitlen_lt_maxChan hg hc
        exact ⟨_, _, hm, (h.withChan (hw h.chanForm) (hb _ hn h.chanInside)).setPos h.bitlenLegal⟩
  | decode =>
    cases hg : s.gridRefusal with
    | some c => exact ⟨s, c, exec_decode_refused hg, h⟩
    | none =>
      obtain ⟨m, hm, -, hw, hb⟩ := exec_decode_run hg
      have hstop := h.stop_le hg
      exact ⟨_, _, hm,
        ((h.withBits (hw h.bitsForm) (hb _ (h.streamLength_le hg) h.bitsInside)).setPos hstop).setBitlen hstop⟩
  | unpack =>
    obtain ⟨m, hm, -, hw, hb⟩ := exec_unpack s
    have hn := h.unpackedBytes_le
    have hpos : s.bitlen.toNat / 8 ≤ s.params.maxBits := (Nat.div_le_self _ _).trans h.bitlenLegal
    exact ⟨_, _, hm, ((h.withPay (hw h.payForm) (hb _ hn h.payInside)).setPos hpos).setBytelen hn⟩

theorem exec_inv {i : Instr} {s t : State} (h : s.InBounds) (hs : exec i s = .next t) : t.Inv := by
  obtain ⟨u, c, hu, hin⟩ := exec_completes_inBounds h i
  obtain rfl := Host.Outcome.next.inj (hs.symm.trans hu)
  exact hin.complete c

theorem memRead_inv {a : Word} {n : Size} {s t : State} (h : s.Inv) (hs : memRead a n s = .next t) : t.Inv := by
  rw [memRead_frame hs]
  exact { h with }

/-- An accepted CMD write starts a command at POS 0 with DONE 0 (R24, R27, R209). -/
theorem State.Inv.accept {s : State} (h : s.Inv) (w : Word) : (s.accept w).Inv :=
  { h with
    phaseBusy := by simp
    notDone := fun _ => rfl
    posRange := Nat.zero_le _
    posStart := fun _ => rfl }

/-- A window write that the map admits stores inside its buffer (R57). -/
theorem State.Inv.writeWindow {s : State} (h : s.Inv) {a : Word} {n : Size} {b : Buffer} {i : Nat}
    (hr : resolve s.params a n = some (.window b i)) (v : Word) : (s.writeWindow b i n v).Inv := by
  obtain ⟨hadm, haddr⟩ := resolve_window hr
  obtain ⟨-, hend, -⟩ := (Buffer.admits_iff _ _ _ _).1 hadm
  obtain ⟨c, d, e, hw, hc, hd, he, hin⟩ := s.writeWindow_form b i n v
  obtain ⟨hbc, hbd, hbe⟩ := hin (by omega)
  rw [hw]
  exact { h with
    chanForm := hc h.chanForm
    bitsForm := hd h.bitsForm
    payForm := he h.payForm
    chanInside := hbc h.chanInside
    bitsInside := hbd h.bitsInside
    payInside := hbe h.payInside }

theorem memWrite_inv {a : Word} {n : Size} {v : Word} {s t : State} (h : s.Inv) (hs : memWrite a n v s = .next t) :
    t.Inv := by
  rcases memWrite_form hs with ⟨-, rfl⟩ | ⟨-, -, rfl⟩ | ⟨-, -, -, rfl⟩ | ⟨-, ⟨w, g, c, ht⟩, hbit, hbyte⟩ | rfl |
    ⟨-, b, i, hr, rfl⟩
  · exact { h with }
  · exact { h with }
  · exact h.accept v
  · have hbitlen : t.bitlen.toNat ≤ s.params.maxBits := hbit.elim (fun e => e ▸ h.bitlenLegal) id
    have hbytelen : t.bytelen.toNat ≤ s.params.maxPay := hbyte.elim (fun e => e ▸ h.bytelenLegal) id
    rw [ht]
    exact { h with bitlenLegal := hbitlen, bytelenLegal := hbytelen }
  · exact h
  · exact h.writeWindow hr v

/-! ## The statement -/

/-- Settles O40, by the kind of step: `exec_inv`, `memRead_inv`, `memWrite_inv`, and a completion or a reset of a state that is in
bounds. -/
theorem stepKeepsTheStateLegal : Obligations.StepKeepsTheStateLegal := by
  intro s t h hs
  have htail : State.Inv { s with events := s.events.tail } := { h with }
  rcases step_cases hs with ⟨-, -, rfl⟩ | ⟨-, -, i, -, he⟩ | ⟨-, -, -, rfl⟩ | ⟨a, n, -, hr⟩ | ⟨a, n, v, -, hw⟩ |
    ⟨-, rfl⟩ | ⟨-, rfl⟩
  · exact htail
  · exact exec_inv htail.inBounds he
  · exact htail.inBounds.complete .illegalCommand
  · exact memRead_inv htail hr
  · exact memWrite_inv htail hw
  · exact htail.inBounds.abandonRunning.clearRegs
  · exact htail.inBounds.clearBuffers.clearRegs

end Sys2Proof.Machine
end

section
/-! SUPPORT. What one step can do to STATUS and to the capacity report, and by which cause: the statements on BUSY, DONE, RESULT,
BUSY_ERR, REQ_BITS and AVAIL_BITS each read it off. -/

namespace Sys2Proof.Machine

/-! ## STATUS -/

/-- The STATUS that one step leaves, by its cause (R26 to R29): as it was, a completion, an accepted CMD write, a write dropped
while BUSY = 1, a STATUS write, or reset. -/
inductive StatusChange (s : State) : Status → Prop
  | kept : StatusChange s s.status
  | completed (c : Code) (turn : s.engineMoves) (run : s.phase = .run) :
      StatusChange s { s.status with busy := false, done := true, result := c.toBits }
  | accepted (w : Word) (write : s.acceptsCommand w) : StatusChange s { s.status with busy := true, done := false }
  | dropped (a : Word) (n : Size) (v : Word) (busy : s.status.busy = true)
      (write : s.events.head? = some (.write a n v)) : StatusChange s { s.status with busyErr := true }
  | written (v : Word) (write : s.events.head? = some (.write 0x08 .word v)) :
      StatusChange s { s.status with busyErr := s.status.busyErr && !v.getLsbD 8 }
  | reset (resets : s.resets) : StatusChange s State.reset.status

/-- A command completes STATUS with one of the codes. -/
theorem exec_status {i : Instr} {s t : State} (h : exec i s = .next t) :
    ∃ c : Code, t.status = { s.status with busy := false, done := true, result := c.toBits } := by
  obtain ⟨u, c, hu, -, hs⟩ := exec_completes i s
  obtain rfl := Host.Outcome.next.inj (h.symm.trans hu)
  exact ⟨c, by rw [State.complete_status, hs.status]⟩

/-- A window write leaves STATUS and the report as they were. -/
theorem State.writeWindow_status_report (s : State) (b : Buffer) (i : Nat) (n : Size) (v : Word) :
    (s.writeWindow b i n v).status = s.status ∧ (s.writeWindow b i n v).reqBits = s.reqBits ∧
      (s.writeWindow b i n v).availBits = s.availBits := by
  obtain ⟨_, _, _, hw, -⟩ := s.writeWindow_form b i n v
  rw [hw]
  exact ⟨rfl, rfl, rfl⟩

/-- The write at the head of the list changes STATUS as a dropped, an accepted or a STATUS write does, or not at all. -/
theorem memWrite_statusChange {a : Word} {n : Size} {v : Word} {s t : State} (he : s.events.head? = some (.write a n v))
    (h : memWrite a n v { s with events := s.events.tail } = .next t) : StatusChange s t.status := by
  rcases memWrite_form h with ⟨hb, rfl⟩ | ⟨rfl, rfl, rfl⟩ | ⟨rfl, rfl, hb, rfl⟩ | ⟨-, ⟨_, _, _, ht⟩, -⟩ | rfl |
    ⟨-, b, i, -, rfl⟩
  · exact .dropped a n v hb he
  · exact .written v he
  · exact .accepted v ⟨he, hb⟩
  · rw [ht]
    exact .kept
  · exact .kept
  · rw [(State.writeWindow_status_report _ b i n v).1]
    exact .kept

/-- Every step changes STATUS by one of the causes of `StatusChange`. -/
theorem step_statusChange {s t : State} (h : step s = .next t) : StatusChange s t.status := by
  rcases step_cases h with ⟨-, -, rfl⟩ | ⟨hm, hp, i, -, he⟩ | ⟨hm, hp, -, rfl⟩ | ⟨a, n, -, hr⟩ | ⟨a, n, v, hev, hw⟩ |
    ⟨hev, rfl⟩ | ⟨hev, rfl⟩
  · exact .kept
  · obtain ⟨c, hc⟩ := exec_status he
    rw [hc]
    exact .completed c hm hp
  · exact .completed .illegalCommand hm hp
  · rw [memRead_frame hr]
    exact .kept
  · exact memWrite_statusChange hev hw
  · exact .reset (.inl hev)
  · exact .reset (.inr hev)

namespace StatusChange

variable {s : State} {x : Status}

/-- BUSY_ERR is set by a dropped write only (R29, R202). -/
theorem busyErr_set (h : StatusChange s x) (h0 : s.status.busyErr = false) (h1 : x.busyErr = true) :
    s.status.busy = true ∧ ∃ a n v, s.events.head? = some (.write a n v) := by
  cases h with
  | dropped a n v busy write => exact ⟨busy, a, n, v, write⟩
  | reset => cases h1
  | kept | completed | accepted | written => simp_all

/-- BUSY_ERR is cleared by reset and by a STATUS write with bit 8 of 1 only (R29). -/
theorem busyErr_cleared (h : StatusChange s x) (h1 : s.status.busyErr = true) (h0 : x.busyErr = false) :
    s.resets ∨ ∃ v : Word, s.events.head? = some (.write 0x08 .word v) ∧ v.getLsbD 8 = true := by
  cases h with
  | written v write => exact .inr ⟨v, write, by simpa [h1] using h0⟩
  | reset resets => exact .inl resets
  | kept | completed | accepted | dropped => simp_all

/-- BUSY is set by an accepted CMD write only (R26). -/
theorem busy_set (h : StatusChange s x) (h0 : s.status.busy = false) (h1 : x.busy = true) : ∃ w, s.acceptsCommand w := by
  cases h with
  | accepted w write => exact ⟨w, write⟩
  | completed | reset => cases h1
  | kept | dropped | written => simp_all

/-- BUSY is cleared by a completion and by reset only (R26). -/
theorem busy_cleared (h : StatusChange s x) (h1 : s.status.busy = true) (h0 : x.busy = false) :
    (s.engineMoves ∧ s.phase = .run) ∨ s.resets := by
  cases h with
  | completed c turn run => exact .inl ⟨turn, run⟩
  | reset resets => exact .inr resets
  | accepted => cases h0
  | kept | dropped | written => simp_all

/-- DONE is set by a completion only (R27). -/
theorem done_set (h : StatusChange s x) (h0 : s.status.done = false) (h1 : x.done = true) :
    s.engineMoves ∧ s.phase = .run := by
  cases h with
  | completed c turn run => exact ⟨turn, run⟩
  | accepted | reset => cases h1
  | kept | dropped | written => simp_all

/-- DONE is cleared by an accepted CMD write and by reset only (R27). -/
theorem done_cleared (h : StatusChange s x) (h1 : s.status.done = true) (h0 : x.done = false) :
    (∃ w, s.acceptsCommand w) ∨ s.resets := by
  cases h with
  | accepted w write => exact .inl ⟨w, write⟩
  | reset resets => exact .inr resets
  | completed => cases h0
  | kept | dropped | written => simp_all

/-- RESULT is written by a completion, with a code of R170, and cleared by reset (R28). -/
theorem result_changed (h : StatusChange s x) (hne : x.result ≠ s.status.result) :
    (s.engineMoves ∧ s.phase = .run ∧ x.done = true ∧ x.result.toNat ≤ 5) ∨ (s.resets ∧ x.result = 0) := by
  cases h with
  | completed c turn run => exact .inl ⟨turn, run, rfl, c.toBits_le⟩
  | reset resets => exact .inr ⟨resets, rfl⟩
  | kept | accepted | dropped | written => exact absurd rfl hne

end StatusChange

/-! ## The capacity report -/

/-- A command writes the report only as ENCODE does when the capacity is exceeded (R171). -/
theorem exec_report {i : Instr} {s t : State} (h : exec i s = .next t) :
    (t.reqBits = s.reqBits ∧ t.availBits = s.availBits) ∨ (i = .encode ∧ t = s.capacityExceeded) := by
  have next_eq : ∀ u, exec i s = .next u → t = u := fun u hu => Host.Outcome.next.inj (h.symm.trans hu)
  cases i with
  | nop =>
    obtain rfl := next_eq _ (exec_nop s)
    exact .inl ⟨rfl, rfl⟩
  | pack =>
    obtain ⟨_, hm, -⟩ := exec_pack s
    obtain rfl := next_eq _ hm
    exact .inl ⟨rfl, rfl⟩
  | encode =>
    cases hg : s.gridRefusal with
    | some c =>
      obtain rfl := next_eq _ (exec_encode_refused hg)
      exact .inl ⟨rfl, rfl⟩
    | none =>
      rcases lt_or_ge s.capacity (s.bitlen.toNat : Int) with hc | hc
      · exact .inr ⟨rfl, next_eq _ (exec_encode_exceeded hg hc)⟩
      · obtain ⟨_, hm, -⟩ := exec_encode_ok hg hc
        obtain rfl := next_eq _ hm
        exact .inl ⟨rfl, rfl⟩
  | decode =>
    cases hg : s.gridRefusal with
    | some c =>
      obtain rfl := next_eq _ (exec_decode_refused hg)
      exact .inl ⟨rfl, rfl⟩
    | none =>
      obtain ⟨_, hm, -⟩ := exec_decode_run hg
      obtain rfl := next_eq _ hm
      exact .inl ⟨rfl, rfl⟩
  | unpack =>
    obtain ⟨_, hm, -⟩ := exec_unpack s
    obtain rfl := next_eq _ hm
    exact .inl ⟨rfl, rfl⟩

/-- A host write leaves the report as it was: its registers are read-only (R37). -/
theorem memWrite_report {a : Word} {n : Size} {v : Word} {s t : State} (h : memWrite a n v s = .next t) :
    t.reqBits = s.reqBits ∧ t.availBits = s.availBits := by
  rcases memWrite_form h with ⟨-, rfl⟩ | ⟨-, -, rfl⟩ | ⟨-, -, -, rfl⟩ | ⟨-, ⟨_, _, _, ht⟩, -⟩ | rfl | ⟨-, b, i, -, rfl⟩
  · exact ⟨rfl, rfl⟩
  · exact ⟨rfl, rfl⟩
  · exact ⟨rfl, rfl⟩
  · rw [ht]
    exact ⟨rfl, rfl⟩
  · exact ⟨rfl, rfl⟩
  · exact (s.writeWindow_status_report b i n v).2

/-- Every step keeps the report, writes it as an ENCODE beyond the capacity does, or clears it by reset. -/
theorem step_report {s t : State} (h : step s = .next t) :
    (t.reqBits = s.reqBits ∧ t.availBits = s.availBits) ∨
    (s.engineMoves ∧ s.phase = .run ∧ decode s.opl = .ok .encode ∧
      t = State.capacityExceeded { s with events := s.events.tail }) ∨
    (s.resets ∧ t.reqBits = 0 ∧ t.availBits = 0) := by
  rcases step_cases h with ⟨-, -, rfl⟩ | ⟨hm, hp, i, hd, he⟩ | ⟨-, -, -, rfl⟩ | ⟨a, n, -, hr⟩ | ⟨a, n, v, -, hw⟩ |
    ⟨hev, rfl⟩ | ⟨hev, rfl⟩
  · exact .inl ⟨rfl, rfl⟩
  · rcases exec_report he with hkept | ⟨rfl, ht⟩
    · exact .inl hkept
    · exact .inr (.inl ⟨hm, hp, hd, ht⟩)
  · exact .inl ⟨rfl, rfl⟩
  · rw [memRead_frame hr]
    exact .inl ⟨rfl, rfl⟩
  · have hkept := memWrite_report hw
    exact .inl hkept
  · exact .inr (.inr ⟨.inl hev, rfl, rfl⟩)
  · exact .inr (.inr ⟨.inr hev, rfl, rfl⟩)

/-! ## The statements on every step -/

/-- Settles O45, by the cause of the change of STATUS. -/
theorem busyAndDoneChangeOnlyAsStated : Obligations.BusyAndDoneChangeOnlyAsStated := by
  intro s t h
  have hc := step_statusChange h
  exact ⟨hc.busy_set, hc.busy_cleared, hc.done_set, hc.done_cleared⟩

/-- Settles O46, by the cause of the change of STATUS. -/
theorem resultChangesOnlyAtCompletion : Obligations.ResultChangesOnlyAtCompletion := by
  intro s t h
  exact (step_statusChange h).result_changed

/-- Settles O48, by `step_report`. -/
theorem reportIsWrittenOnlyByCapacityExceeded : Obligations.ReportIsWrittenOnlyByCapacityExceeded := by
  intro s t h hne
  rcases step_report h with ⟨hreq, havail⟩ | ⟨hm, hp, hd, rfl⟩ | hreset
  · exact absurd hne (by simp [hreq, havail])
  · exact .inl ⟨hm, hp, hd, rfl, rfl, rfl⟩
  · exact .inr hreset

end Sys2Proof.Machine
end

section
/-! SUPPORT. The register accesses of the host, address by address: CMD, STATUS, CAPACITY and the read-only registers. -/

namespace Sys2Proof.Machine

/-! ## The busy rule (R202) -/

theorem State.writeReg_idle {s : State} (hb : s.status.busy = false) (r : Reg) (v : Word) :
    s.writeReg r v = s.storeReg r v := by
  simp [State.writeReg, hb]

theorem State.writeReg_dropped {s : State} {r : Reg} (hb : s.status.busy = true) (hr : r.busyDrops = true) (v : Word) :
    s.writeReg r v = s.dropWrite := by
  simp [State.writeReg, hb, hr]

theorem State.writeReg_kept {r : Reg} (hr : r.busyDrops = false) (s : State) (v : Word) :
    s.writeReg r v = s.storeReg r v := by
  simp [State.writeReg, hr]

/-! ## CMD -/

theorem memWrite_cmd_idle {s : State} (hb : s.status.busy = false) (w : Word) :
    memWrite 0x04 .word w s = .next (s.accept w) := by
  rw [memWrite_reg s 0x04 w .cmd rfl, State.writeReg_idle hb]
  rfl

theorem memWrite_cmd_busy {s : State} (hb : s.status.busy = true) (w : Word) :
    memWrite 0x04 .word w s = .next s.dropWrite := by
  rw [memWrite_reg s 0x04 w .cmd rfl, State.writeReg_dropped hb rfl]

/-! ## STATUS -/

/-- A STATUS write is performed, busy or not (R202). -/
theorem memWrite_status (s : State) (v : Word) : memWrite 0x08 .word v s = .next (s.writeStatus v) := by
  rw [memWrite_reg s 0x08 v .status rfl, State.writeReg_kept rfl]
  rfl

theorem State.writeStatus_eq (s : State) (v : Word) : s.writeStatus v =
    { s with status := { s.status with busyErr := if v.getLsbD 8 = true then false else s.status.busyErr } } := by
  rw [State.writeStatus]
  cases v.getLsbD 8
  · rw [Bool.not_false, Bool.and_true, if_neg Bool.false_ne_true]
  · rw [Bool.not_true, Bool.and_false, if_pos rfl]

/-- A STATUS write looks at bit 8 of its data only (R29). -/
theorem State.writeStatus_congr (s : State) {v u : Word} (h : v.getLsbD 8 = u.getLsbD 8) :
    s.writeStatus v = s.writeStatus u := by
  rw [State.writeStatus, State.writeStatus, h]

/-- The fields of the STATUS word at their positions, the reserved bits 0 (R25): STATUS stores seven bits, so its words are
finitely many. -/
theorem Status.toWord_fields (t : Status) :
    t.toWord.getLsbD 0 = t.busy ∧ t.toWord.getLsbD 1 = t.done ∧ t.toWord.extractLsb' 4 4 = t.result ∧
      t.toWord.getLsbD 8 = t.busyErr ∧ t.toWord.extractLsb' 2 2 = 0 ∧ t.toWord.extractLsb' 9 23 = 0 := by
  obtain ⟨busy, done, result, busyErr⟩ := t
  revert busy done result busyErr
  decide

/-- The same for the reserved bits as one mask (R37). -/
theorem Status.toWord_reserved (t : Status) : t.toWord &&& 0xFFFFFE0C = 0 := by
  obtain ⟨busy, done, result, busyErr⟩ := t
  revert busy done result busyErr
  decide

/-! ## CAPACITY -/

/-- The capacity word is N − 1 modulo 2^32, for the exact N (R31). -/
theorem State.capacityWord_toNat (s : State) : s.capacityWord.toNat = (s.streamLength + (2 ^ 32 - 1)) % 2 ^ 32 := by
  simp only [State.capacityWord, State.capacity, BitVec.toNat_ofInt]
  omega

/-! ## Read-only registers -/

theorem memWrite_readOnly (s : State) (a v : Word) (h : a = 0x00 ∨ a = 0x20 ∨ a = 0x24 ∨ a = 0x28) :
    memWrite a .word v s = .next s := by
  rcases h with rfl | rfl | rfl | rfl
  · rw [memWrite_reg s 0x00 v .id rfl, State.writeReg_kept rfl]
    rfl
  · rw [memWrite_reg s 0x20 v .capacity rfl, State.writeReg_kept rfl]
    rfl
  · rw [memWrite_reg s 0x24 v .reqBits rfl, State.writeReg_kept rfl]
    rfl
  · rw [memWrite_reg s 0x28 v .availBits rfl, State.writeReg_kept rfl]
    rfl

/-! ## The statements -/

/-- Settles O13: the read returns `State.capacityWord`, and a grid that R177 admits keeps N far below 2^32. -/
theorem capacityReadsExactly : Obligations.CapacityReadsExactly := by
  intro s
  have hword : s.capacityWord.toNat = (3 * s.width.toNat * s.height.toNat + (2 ^ 32 - 1)) % 2 ^ 32 := s.capacityWord_toNat
  refine ⟨s.capacityWord, memRead_reg s 0x20 .capacity rfl, fun hempty => ?_, hword, ?_⟩
  · apply BitVec.eq_of_toNat_eq
    rw [hword, Nat.mul_assoc, hempty]
    rfl
  · rintro ⟨-, hchan, -, hbits⟩ hpos hfits
    rw [Nat.mul_assoc] at hword hfits ⊢
    omega

/-- Settles O21: the two STATUS writes, and `step_statusChange` for every step. -/
theorem busyErrIsStickyUntilCleared : Obligations.BusyErrIsStickyUntilCleared := by
  refine ⟨fun s v => ⟨fun hv => ?_, fun hv => ?_⟩, fun s t h => ?_⟩
  · rw [memWrite_status, State.writeStatus_eq, if_pos hv]
  · rw [memWrite_status, State.writeStatus_eq, hv]
    rfl
  · have hc := step_statusChange h
    exact ⟨hc.busyErr_set, hc.busyErr_cleared⟩

/-- Settles O5: `memWrite_cmd_idle`, `memWrite_cmd_busy`, and the engine's turn after an accepted write. -/
theorem cmdWriteStartsOneCommand : Obligations.CmdWriteStartsOneCommand := by
  intro s w
  refine ⟨fun hb => memWrite_cmd_idle hb w, fun hb i t hd ht => ?_, fun hb => memWrite_cmd_busy hb w,
    memRead_reg s 0x04 .cmd rfl⟩
  obtain rfl := Host.Outcome.next.inj ((memWrite_cmd_idle hb w).symm.trans ht)
  exact engineTurn_run rfl hd

/-- Settles O12: the fields of the word read, and `State.writeStatus_eq`. -/
theorem statusWordHasItsFields : Obligations.StatusWordHasItsFields := by
  intro s
  refine ⟨⟨s.status.toWord, memRead_reg s 0x08 .status rfl, s.status.toWord_fields⟩, fun v => ?_⟩
  rw [memWrite_status, State.writeStatus_eq]

/-- Settles O15: bit 8 is the one bit of a STATUS write's data that counts, and it is outside the reserved bits. -/
theorem readOnlyWritesAreIgnored : Obligations.ReadOnlyWritesAreIgnored := by
  intro s
  refine ⟨memWrite_readOnly s, fun v u hvu => ?_, s.status.toWord, memRead_reg s 0x08 .status rfl,
    s.status.toWord_reserved⟩
  have hbit : v.getLsbD 8 = u.getLsbD 8 := by
    have h8 := congrArg (BitVec.getLsbD · 8) hvu
    simpa using h8
  rw [memWrite_status, memWrite_status, s.writeStatus_congr hbit]

/-- Settles O4: `step_nil` and `step_cons` say which event is performed, and the laws of `engineTurn` what the engine does. -/
theorem stepRunsDecodedCommand : Obligations.StepRunsDecodedCommand := by
  intro s
  refine ⟨fun i hp hd => ⟨fun he => ?_, fun rest he => ?_⟩, fun r hp hd => ⟨fun he => ?_, fun rest he => ?_⟩,
    fun he => step_nil he, fun rest he => step_cons he, fun hp => ⟨fun he => ?_, fun rest he => ?_⟩,
    fun rest a n he => step_cons he, fun rest a n v he => step_cons he,
    fun rest he => ⟨step_cons he, step_cons he⟩, fun rest he => ⟨step_cons he, step_cons he⟩⟩
  · rw [step_nil he, engineTurn_run hp hd]
  · exact (step_cons he).trans (engineTurn_run hp hd)
  · exact (step_nil he).trans (engineTurn_illegal hp hd)
  · exact (step_cons he).trans (engineTurn_illegal hp hd)
  · rw [step_nil he, engineTurn_idle hp]
  · exact (step_cons he).trans (engineTurn_idle hp)

end Sys2Proof.Machine
end

section
/-! SUPPORT. The map and the host accesses: which accesses are bus errors, what a register or window access does while idle, and
that a host access while BUSY = 1 disturbs nothing. -/

namespace Sys2Proof.Machine

/-! ## The map -/

/-- The numbers of R50 are the windows' bases and lengths. -/
theorem windowOf_iff {p : Params} {b : Buffer} {base len : Nat} :
    WindowOf p b base len ↔ base = b.base ∧ len = b.length p := by
  cases b <;> simp [WindowOf, Buffer.base, Buffer.length, Params.maxBits]

/-- The access of a window in R50's numbers is one its buffer admits. -/
theorem WindowOf.admits {p : Params} {b : Buffer} {base len a : Nat} {n : Size} (hw : WindowOf p b base len)
    (hfirst : base ≤ a) (hlast : a + n.bytes ≤ base + len) (halign : a % n.bytes = 0) : b.admits p a n = true := by
  obtain ⟨rfl, rfl⟩ := windowOf_iff.1 hw
  exact (Buffer.admits_iff p b a n).2 ⟨hfirst, hlast, halign⟩

/-- The map admits exactly the accesses that reach something (R51, R57, R62). -/
theorem mapAdmits_iff (p : Params) (a : Word) (n : Size) : MapAdmits p a.toNat n ↔ (resolve p a n).isSome = true := by
  rw [resolve_isSome]
  refine or_congr Iff.rfl (exists_congr fun b => ⟨?_, fun h => ?_⟩)
  · rintro ⟨base, len, hw, hfirst, hlast, halign⟩
    exact hw.admits hfirst hlast halign
  · exact ⟨b.base, b.length p, windowOf_iff.2 ⟨rfl, rfl⟩, (Buffer.admits_iff p b a.toNat n).1 h⟩

/-- An access of a window in R50's numbers reaches it, from the entry at its distance from the base on. -/
theorem resolve_of_windowOf {p : Params} (hp : p.Legal) {a : Word} {n : Size} {b : Buffer} {base len : Nat}
    (hw : WindowOf p b base len) (hfirst : base ≤ a.toNat) (hlast : a.toNat + n.bytes ≤ base + len)
    (halign : a.toNat % n.bytes = 0) : resolve p a n = some (.window b (a.toNat - base)) := by
  rw [resolve_of_admits hp a n b (hw.admits hfirst hlast halign), (windowOf_iff.1 hw).1]

/-! ## Accesses by what they reach -/

section
variable {s : State} {a : Word} {n : Size}

theorem memRead_of_none (h : resolve s.params a n = none) : memRead a n s = .fault (.busError a) := by
  simp only [memRead, h]

theorem memRead_of_reg {r : Reg} (h : resolve s.params a n = some (.reg r)) :
    memRead a n s = .next (s.respond (s.readReg r)) := by
  simp only [memRead, h]

theorem memRead_of_window_idle {b : Buffer} {i : Nat} (h : resolve s.params a n = some (.window b i))
    (hb : s.status.busy = false) : memRead a n s = .next (s.respond (s.readWindow b i n)) := by
  simp only [memRead, h, hb, Bool.false_eq_true, if_false]

theorem memRead_of_window_busy {b : Buffer} {i : Nat} (h : resolve s.params a n = some (.window b i))
    (hb : s.status.busy = true) :
    memRead a n s = .next (s.respond (n.truncate (Config.busyRead s.draws))).nextDraw := by
  simp only [memRead, h, hb, if_true]

theorem memWrite_of_none (h : resolve s.params a n = none) (v : Word) : memWrite a n v s = .fault (.busError a) := by
  simp only [memWrite, h]

theorem memWrite_of_reg {r : Reg} (h : resolve s.params a n = some (.reg r)) (v : Word) :
    memWrite a n v s = .next (s.writeReg r v) := by
  simp only [memWrite, h]

theorem memWrite_of_window_idle {b : Buffer} {i : Nat} (h : resolve s.params a n = some (.window b i))
    (hb : s.status.busy = false) (v : Word) : memWrite a n v s = .next (s.writeWindow b i n v) := by
  simp only [memWrite, h, hb, Bool.false_eq_true, if_false]

theorem memWrite_of_window_busy {b : Buffer} {i : Nat} (h : resolve s.params a n = some (.window b i))
    (hb : s.status.busy = true) (v : Word) : memWrite a n v s = .next s.dropWrite := by
  simp only [memWrite, h, hb, if_true]

/-- An access that reaches something is performed, busy or not. -/
theorem access_of_isSome (h : (resolve s.params a n).isSome = true) (v : Word) :
    (∃ t, memRead a n s = .next t) ∧ ∃ t, memWrite a n v s = .next t := by
  obtain ⟨target, ht⟩ := Option.isSome_iff_exists.1 h
  cases target with
  | reg r => exact ⟨⟨_, memRead_of_reg ht⟩, _, memWrite_of_reg ht v⟩
  | window b i =>
    cases hb : s.status.busy with
    | false => exact ⟨⟨_, memRead_of_window_idle ht hb⟩, _, memWrite_of_window_idle ht hb v⟩
    | true => exact ⟨⟨_, memRead_of_window_busy ht hb⟩, _, memWrite_of_window_busy ht hb v⟩

end

/-- An access that reaches nothing is a bus error at its address, busy or not (R62, R63). -/
theorem access_of_none {s : State} {a : Word} {n : Size} (h : resolve s.params a n = none) (v : Word) :
    memRead a n s = .fault (.busError a) ∧ memWrite a n v s = .fault (.busError a) :=
  ⟨memRead_of_none h, memWrite_of_none h v⟩

/-- Settles O16, by `mapAdmits_iff`: an access is performed when it reaches something, and else is a bus error. -/
theorem busErrorsAreExactlyTheUnmapped : Obligations.BusErrorsAreExactlyTheUnmapped := by
  intro s a v n
  rw [mapAdmits_iff]
  exact ⟨fun h => access_of_isSome h v, fun h => access_of_none (Option.not_isSome_iff_eq_none.1 h) v⟩

/-! ## What a step can answer -/

/-- A host access is performed or is a bus error at its address (R63). -/
theorem access_next_or_busError (s : State) (a : Word) (n : Size) (v : Word) :
    ((∃ t, memRead a n s = .next t) ∧ ∃ t, memWrite a n v s = .next t) ∨
      (memRead a n s = .fault (.busError a) ∧ memWrite a n v s = .fault (.busError a)) := by
  cases hr : resolve s.params a n with
  | none => exact .inr (access_of_none hr v)
  | some target => exact .inl (access_of_isSome (by rw [hr]; rfl) v)

/-- The engine's turn always answers a next state (R175). -/
theorem engineTurn_next (s : State) : ∃ t, engineTurn s = .next t := by
  rcases engineTurn_cases s with ⟨-, h⟩ | ⟨i, -, -, h⟩ | ⟨_, -, -, h⟩
  · exact ⟨_, h⟩
  · obtain ⟨u, c, hu, -⟩ := exec_completes i s
    exact ⟨_, h.trans hu⟩
  · exact ⟨_, h⟩

/-- Every step answers a next state, or a bus error at the address of the host access it performs. -/
theorem step_next_or_busError (s : State) : (∃ t, step s = .next t) ∨ ∃ a, step s = .fault (.busError a) ∧
    ((∃ n, s.events.head? = some (.read a n)) ∨ ∃ n v, s.events.head? = some (.write a n v)) := by
  cases he : s.events with
  | nil =>
    rw [step_nil he]
    exact .inl (engineTurn_next s)
  | cons e rest =>
    rw [step_cons he]
    cases e with
    | read a n =>
      exact (access_next_or_busError _ a n 0).imp And.left fun h => ⟨a, h.1, .inl ⟨n, rfl⟩⟩
    | write a n v =>
      exact (access_next_or_busError _ a n v).imp And.right fun h => ⟨a, h.2, .inr ⟨n, v, rfl⟩⟩
    | engine => exact .inl (engineTurn_next _)
    | reset => exact .inl ⟨_, rfl⟩
    | powerOn => exact .inl ⟨_, rfl⟩

/-- Settles O10, by `step_next_or_busError`. -/
theorem onlyHostAccessesFault : Obligations.OnlyHostAccessesFault := by
  intro s
  rcases step_next_or_busError s with ⟨t, h⟩ | ⟨a, h, haccess⟩ <;> rw [h]
  · exact ⟨nofun, nofun⟩
  · refine ⟨nofun, fun f hf => ⟨a, ?_, haccess⟩⟩
    exact (Host.Outcome.fault.inj hf).symm

/-! ## Window reads -/

theorem State.toNat_entryAt (s : State) (b : Buffer) (i : Nat) : (s.entryAt b i).toNat = s.entryValue b i := by
  cases b with
  | chan => rfl
  | bits => exact BitVec.toNat_setWidth_of_le (by decide)
  | pay => rfl

/-- A byte appended below a word is the word's low digit in base 256. -/
theorem toNat_append_byte {w : Nat} (x : BitVec w) (y : Byte) : (x ++ y).toNat = x.toNat * 256 + y.toNat := by
  rw [BitVec.toNat_append, ← Nat.shiftLeft_add_eq_or_of_lt y.isLt, Nat.shiftLeft_eq]

/-- The data of a window read is its entries in base 256, the first one lowest (R58). -/
theorem State.toNat_readWindow (s : State) (b : Buffer) (i : Nat) (n : Size) :
    (s.readWindow b i n).toNat = ∑ j ∈ Finset.range n.bytes, s.entryValue b (i + j) * 256 ^ j := by
  simp only [← State.toNat_entryAt]
  cases n with
  | byte =>
    simp only [State.readWindow, Size.bytes, Finset.sum_range_one]
    rw [BitVec.toNat_setWidth_of_le (by decide), Nat.pow_zero, Nat.mul_one, Nat.add_zero]
  | half =>
    simp only [State.readWindow, Size.bytes, Finset.sum_range_succ, Finset.sum_range_zero, Nat.add_zero]
    rw [BitVec.toNat_setWidth_of_le (by decide), toNat_append_byte]
    omega
  | word =>
    simp only [State.readWindow, Size.bytes, Finset.sum_range_succ, Finset.sum_range_zero, toNat_append_byte, Nat.add_zero]
    omega

/-- Settles O17: the access reaches its window by `resolve_of_windowOf`, and `State.toNat_readWindow` gives its data. -/
theorem windowReadIsLittleEndian : Obligations.WindowReadIsLittleEndian := by
  intro s a n b base len hp hb hw hfirst hlast halign
  have hr := resolve_of_windowOf hp hw hfirst hlast halign
  exact ⟨_, memRead_of_window_idle hr hb, s.toNat_readWindow b _ n⟩

/-! ## Window writes -/

/-- Byte lane j of a word is its digit j in base 256 (R58). -/
theorem lane_eq_ofNat (v : Word) (j : Nat) : lane v j = BitVec.ofNat 8 (v.toNat / 256 ^ j) := by
  apply BitVec.eq_of_toNat_eq
  rw [lane, BitVec.extractLsb'_toNat, BitVec.toNat_ofNat, Nat.shiftRight_eq_div_pow, Nat.pow_mul]

/-- Bit 0 of byte lane j (R60). -/
theorem extractLsb'_lane (v : Word) (j : Nat) : (lane v j).extractLsb' 0 1 = BitVec.ofNat 1 (v.toNat / 256 ^ j) := by
  rw [lane_eq_ofNat]
  apply BitVec.eq_of_toNat_eq
  rw [BitVec.extractLsb'_toNat, BitVec.toNat_ofNat, BitVec.toNat_ofNat, Nat.shiftRight_zero]
  omega

section
variable (s : State) (b : Buffer) (i j : Nat) (n : Size) (v : Word)

theorem State.chanAt_writeWindow : (s.writeWindow b i n v).chanAt j =
    if b = .chan ∧ i ≤ j ∧ j < i + n.bytes then BitVec.ofNat 8 (v.toNat / 256 ^ (j - i)) else s.chanAt j := by
  have h := s.writeWindow_entryAt b .chan i j n v
  cases b with
  | chan => simpa only [State.entryAt, true_and, lane_eq_ofNat] using h
  | bits => simpa only [State.entryAt, reduceCtorEq, false_and, if_false] using h
  | pay => simpa only [State.entryAt, reduceCtorEq, false_and, if_false] using h

theorem State.payAt_writeWindow : (s.writeWindow b i n v).payAt j =
    if b = .pay ∧ i ≤ j ∧ j < i + n.bytes then BitVec.ofNat 8 (v.toNat / 256 ^ (j - i)) else s.payAt j := by
  have h := s.writeWindow_entryAt b .pay i j n v
  cases b with
  | chan => simpa only [State.entryAt, reduceCtorEq, false_and, if_false] using h
  | bits => simpa only [State.entryAt, reduceCtorEq, false_and, if_false] using h
  | pay => simpa only [State.entryAt, true_and, lane_eq_ofNat] using h

theorem State.bitAt_writeWindow : (s.writeWindow b i n v).bitAt j =
    if b = .bits ∧ i ≤ j ∧ j < i + n.bytes then BitVec.ofNat 1 (v.toNat / 256 ^ (j - i)) else s.bitAt j := by
  have h := s.writeWindow_entryAt b .bits i j n v
  have bit_eq : ∀ x y : Bit, x.setWidth 8 = y.setWidth 8 → x = y := by decide
  apply bit_eq
  cases b with
  | chan => simpa only [State.entryAt, reduceCtorEq, false_and, if_false] using h
  | bits =>
    simp only [State.entryAt, true_and, extractLsb'_lane] at h
    simp only [true_and, h]
    split <;> rfl
  | pay => simpa only [State.entryAt, reduceCtorEq, false_and, if_false] using h

end

/-- A window write changes nothing but the storage of the buffers. -/
theorem State.writeWindow_frame (s : State) (b : Buffer) (i : Nat) (n : Size) (v : Word) :
    s.writeWindow b i n v = { s with
      chan := (s.writeWindow b i n v).chan, bits := (s.writeWindow b i n v).bits, pay := (s.writeWindow b i n v).pay } := by
  obtain ⟨c, d, e, hw, -⟩ := s.writeWindow_form b i n v
  rw [hw]

/-- Settles O18: the access reaches its window by `resolve_of_windowOf`, and each buffer's entries are read off. -/
theorem windowWriteStoresItsLanes : Obligations.WindowWriteStoresItsLanes := by
  intro s a v n b base len hp hb hw hfirst hlast halign
  have hr := resolve_of_windowOf hp hw hfirst hlast halign
  exact ⟨_, memWrite_of_window_idle hr hb v, s.writeWindow_frame b _ n v, fun i => s.chanAt_writeWindow b _ i n v,
    fun i => s.bitAt_writeWindow b _ i n v, fun i => s.payAt_writeWindow b _ i n v⟩

/-! ## Repeated reads -/

/-- Data returned to the host change no later read of a register. -/
theorem State.readReg_respond (s : State) (x : Word) (r : Reg) : (s.respond x).readReg r = s.readReg r := by
  cases r <;> rfl

/-- Data returned to the host change no later read of a window. -/
theorem State.readWindow_respond (s : State) (x : Word) (b : Buffer) (i : Nat) (n : Size) :
    (s.respond x).readWindow b i n = s.readWindow b i n := by
  cases b <;> cases n <;> rfl

/-- A read returns one value, and while BUSY = 0 the same value when it is repeated (R52, R64). -/
theorem memRead_repeats {a : Word} {n : Size} {s t : State} (h : memRead a n s = .next t) :
    ∃ x, t.reads = x :: s.reads ∧ (s.status.busy = false → memRead a n t = .next { t with reads := x :: t.reads }) := by
  rcases memRead_cases h with ⟨r, hr, rfl⟩ | ⟨b, i, -, hbusy, rfl⟩ | ⟨b, i, hr, hidle, rfl⟩
  · refine ⟨s.readReg r, rfl, fun _ => ?_⟩
    rw [memRead_of_reg (s := s.respond _) hr, State.readReg_respond]
    rfl
  · exact ⟨_, rfl, fun hidle => absurd (hbusy.symm.trans hidle) nofun⟩
  · refine ⟨s.readWindow b i n, rfl, fun _ => ?_⟩
    rw [memRead_of_window_idle (s := s.respond _) hr hidle, State.readWindow_respond]
    rfl

/-- Settles O50, by `memRead_frame` and `memRead_repeats`. -/
theorem readsHaveNoSideEffect : Obligations.ReadsHaveNoSideEffect := by
  intro s t a n h
  exact ⟨memRead_frame h, memRead_repeats h⟩

/-! ## OPL -/

/-- A host write leaves OPL as it was, or is an accepted CMD write of the word OPL then holds (R71). -/
theorem memWrite_opl {a : Word} {n : Size} {v : Word} {s t : State} (h : memWrite a n v s = .next t) :
    t.opl = s.opl ∨ (a = 0x04 ∧ n = .word ∧ s.status.busy = false ∧ t.opl = v) := by
  rcases memWrite_form h with ⟨-, rfl⟩ | ⟨-, -, rfl⟩ | ⟨ha, hn, hb, rfl⟩ | ⟨-, ⟨_, _, _, ht⟩, -⟩ | rfl | ⟨-, b, i, -, rfl⟩
  · exact .inl rfl
  · exact .inl rfl
  · exact .inr ⟨ha, hn, hb, rfl⟩
  · rw [ht]
    exact .inl rfl
  · exact .inl rfl
  · rw [s.writeWindow_frame b i n v]
    exact .inl rfl

/-- Every step keeps OPL, latches the word of an accepted CMD write, or clears OPL by reset (R45, R71). -/
theorem step_opl {s t : State} (h : step s = .next t) :
    t.opl = s.opl ∨ s.acceptsCommand t.opl ∨ (s.resets ∧ t.opl = 0) := by
  rcases step_cases h with ⟨-, -, rfl⟩ | ⟨-, -, i, -, he⟩ | ⟨-, -, -, rfl⟩ | ⟨a, n, -, hr⟩ | ⟨a, n, v, hev, hw⟩ |
    ⟨hev, rfl⟩ | ⟨hev, rfl⟩
  · exact .inl rfl
  · obtain ⟨u, c, hu, -, hs⟩ := exec_completes i { s with events := s.events.tail }
    obtain rfl := Host.Outcome.next.inj (he.symm.trans hu)
    exact .inl hs.opl
  · exact .inl rfl
  · rw [memRead_frame hr]
    exact .inl rfl
  · rcases memWrite_opl hw with hkept | ⟨rfl, rfl, hb, rfl⟩
    · exact .inl hkept
    · exact .inr (.inl ⟨hev, hb⟩)
  · exact .inr (.inr ⟨.inl hev, rfl⟩)
  · exact .inr (.inr ⟨.inr hev, rfl⟩)

/-- Settles O47, by `step_opl`. -/
theorem commandWordIsSampledOnce : Obligations.CommandWordIsSampledOnce := by
  intro s t h hne
  exact (step_opl h).resolve_left hne

/-! ## Accesses while a command runs -/

/-- While BUSY = 1 a host write changes nothing but BUSY_ERR (R29, R202). -/
theorem memWrite_busy_frame {a : Word} {n : Size} {v : Word} {s t : State} (hb : s.status.busy = true)
    (h : memWrite a n v s = .next t) : t = { s with status := { s.status with busyErr := t.status.busyErr } } := by
  have busy_not_idle : ¬ s.status.busy = false := by rw [hb]; nofun
  rcases memWrite_form h with ⟨-, rfl⟩ | ⟨-, -, rfl⟩ | ⟨-, -, hidle, -⟩ | ⟨hidle, -⟩ | rfl | ⟨hidle, -⟩
  · rfl
  · rfl
  · exact absurd hidle busy_not_idle
  · exact absurd hidle busy_not_idle
  · rfl
  · exact absurd hidle busy_not_idle

/-- Settles O49, by the frames of the two kinds of access. -/
theorem hostCannotDisturbARunningCommand : Obligations.HostCannotDisturbARunningCommand := by
  rintro s t rest hb (⟨a, n, he⟩ | ⟨a, n, v, he⟩) h
  · rw [step_cons he] at h
    rw [memRead_frame h]
  · rw [step_cons he] at h
    rw [memWrite_busy_frame (s := { s with events := rest }) hb h]

/-! ## Register accesses by address -/

/-- Settles O11, register by register by `memRead_reg`. -/
theorem registerReadsReturnTheirValues : Obligations.RegisterReadsReturnTheirValues := by
  intro s
  exact ⟨memRead_reg s 0x00 .id rfl, memRead_reg s 0x04 .cmd rfl, memRead_reg s 0x08 .status rfl,
    memRead_reg s 0x0C .width rfl, memRead_reg s 0x10 .height rfl, memRead_reg s 0x14 .channels rfl,
    memRead_reg s 0x18 .bitlen rfl, memRead_reg s 0x1C .bytelen rfl, memRead_reg s 0x20 .capacity rfl,
    memRead_reg s 0x24 .reqBits rfl, memRead_reg s 0x28 .availBits rfl⟩

/-- While BUSY = 0 a register write is performed (R53). -/
theorem memWrite_reg_idle {s : State} (hb : s.status.busy = false) {a : Word} (r : Reg) (h : a.toNat = r.offset) (v : Word) :
    memWrite a .word v s = .next (s.storeReg r v) := by
  rw [memWrite_reg s a v r h, State.writeReg_idle hb]

/-- While BUSY = 1 a write of one of the six writable registers is dropped (R202). -/
theorem memWrite_reg_dropped {s : State} (hb : s.status.busy = true) {a : Word} (v : Word)
    (ha : a = 0x04 ∨ a = 0x0C ∨ a = 0x10 ∨ a = 0x14 ∨ a = 0x18 ∨ a = 0x1C) :
    memWrite a .word v s = .next s.dropWrite := by
  have drops : ∀ r : Reg, a.toNat = r.offset → r.busyDrops = true → memWrite a .word v s = .next s.dropWrite := by
    intro r h hr
    rw [memWrite_reg s a v r h, State.writeReg_dropped hb hr]
  rcases ha with rfl | rfl | rfl | rfl | rfl | rfl
  · exact drops .cmd rfl rfl
  · exact drops .width rfl rfl
  · exact drops .height rfl rfl
  · exact drops .channels rfl rfl
  · exact drops .bitlen rfl rfl
  · exact drops .bytelen rfl rfl

/-- Settles O14: `memWrite_reg_idle` and `memWrite_reg_dropped` for the six writable registers, and the laws of STATUS and of the
read-only ones. -/
theorem registerWritesFollowTheMap : Obligations.RegisterWritesFollowTheMap := by
  intro s v
  refine ⟨fun hb => ?_, fun hb a ha => memWrite_reg_dropped hb v ha, ?_, fun a => memWrite_readOnly s a v⟩
  · exact ⟨memWrite_reg_idle hb .cmd rfl v, memWrite_reg_idle hb .width rfl v, memWrite_reg_idle hb .height rfl v,
      memWrite_reg_idle hb .channels rfl v, memWrite_reg_idle hb .bitlen rfl v, memWrite_reg_idle hb .bytelen rfl v⟩
  · rw [memWrite_status, State.writeStatus_eq]

end Sys2Proof.Machine
end

section
/-! SUPPORT. Command words. The decoder is taken apart by its two fields, which gives the word of every command and shows that
every other word is ILLEGAL. -/

namespace Sys2Proof

/-! ## The decoder by fields -/

/-- A word is its two fields, RSVD above OP (R80). -/
theorem rsvdField_append_opField (w : Word) : rsvdField w ++ opField w = w := by
  have hw : w.toNat / 16 < 2 ^ 28 := by omega
  apply BitVec.eq_of_toNat_eq
  simp only [rsvdField, opField, BitVec.toNat_append, BitVec.extractLsb'_toNat, Nat.shiftRight_eq_div_pow]
  rw [← Nat.shiftLeft_add_eq_or_of_lt (Nat.mod_lt _ (by decide)), Nat.shiftLeft_eq]
  omega

/-- A word is a command's encoding when its RSVD is 0 and its OP is the command's (R80, R83). -/
theorem eq_encode_iff (w : Word) (i : Instr) : w = encode i ↔ rsvdField w = 0 ∧ opField w = opOf i := by
  constructor
  · rintro rfl
    cases i <;> exact ⟨rfl, rfl⟩
  · rintro ⟨hr, ho⟩
    rw [← rsvdField_append_opField w, hr, ho, encode]

/-- Each command has one OP value, and each of the other eleven values has none (R83). -/
theorem decodeOp_eq_ok_iff (op : BitVec 4) (i : Instr) : decodeOp op = .ok i ↔ op = opOf i := by
  revert op
  cases i <;> decide

/-- A word with a reserved bit set decodes to no command (R84). -/
theorem decode_of_rsvdField_ne_zero {w : Word} (h : rsvdField w ≠ 0) : decode w = .error .reservedBits := if_pos h

/-- A word without reserved bits decodes by its OP (R84). -/
theorem decode_of_rsvdField_eq_zero {w : Word} (h : rsvdField w = 0) : decode w = decodeOp (opField w) := if_neg (not_not.2 h)

/-- The words that decode to a command are its encoding. -/
theorem decode_eq_ok_iff (w : Word) (i : Instr) : decode w = .ok i ↔ w = encode i := by
  rw [eq_encode_iff]
  by_cases hr : rsvdField w = 0
  · rw [decode_of_rsvdField_eq_zero hr, decodeOp_eq_ok_iff, and_iff_right hr]
  · rw [decode_of_rsvdField_ne_zero hr]
    exact ⟨nofun, fun h => absurd h.1 hr⟩

/-- The command words are the numbers 0 to 4 (R83). -/
theorem toNat_encode_le (i : Instr) : (encode i).toNat ≤ 4 := by cases i <;> decide

/-- The number of a command's word decodes to the command (R83). -/
theorem decode_of_toNat {w : Word} (i : Instr) (h : w.toNat = (encode i).toNat) : decode w = .ok i :=
  (decode_eq_ok_iff w i).2 (BitVec.eq_of_toNat_eq h)

/-- Every other number decodes to no command (R84, R85). -/
theorem exists_decode_eq_error {w : Word} (h : 4 < w.toNat) : ∃ r, decode w = .error r := by
  cases hd : decode w with
  | error r => exact ⟨r, rfl⟩
  | ok i =>
    have hle := toNat_encode_le i
    rw [← (decode_eq_ok_iff w i).1 hd] at hle
    omega

end Sys2Proof

namespace Sys2Proof.Machine

/-- Settles O1: the decoder evaluated at each of the nine words. -/
theorem commandWordsDecodeAsTabled : Obligations.CommandWordsDecodeAsTabled :=
  ⟨rfl, rfl, rfl, rfl, rfl, rfl, rfl, rfl, rfl⟩

/-- Settles O3, by `decode_eq_ok_iff`. -/
theorem decodeInvertsEncodeExactly : Obligations.DecodeInvertsEncodeExactly := decode_eq_ok_iff

/-- Settles O2: the words by number, the engine's turn on the command or the ILLEGAL word in OPL, and the accepted CMD write. -/
theorem decodingIsTotalByFields : Obligations.DecodingIsTotalByFields := by
  refine ⟨fun w => ⟨fun h => ?_, ?_⟩, fun s hp => ⟨fun i hd => ?_, fun r hd => ?_⟩, fun s w hb => ?_⟩
  · exact exists_decode_eq_error (by omega)
  · exact ⟨decode_of_toNat .nop, decode_of_toNat .pack, decode_of_toNat .encode, decode_of_toNat .decode,
      decode_of_toNat .unpack, fun h _ => exists_decode_eq_error h⟩
  · exact engineTurn_run hp hd
  · exact ⟨_, engineTurn_illegal hp hd, rfl⟩
  · exact ⟨_, memWrite_cmd_idle hb w, rfl, rfl⟩

end Sys2Proof.Machine
end

section
/-! SUPPORT. What a reset keeps of the buffers: an abandoned command's entries are forgotten, and no other entry. -/

namespace Sys2Proof.Machine

/-! ## What an abandoned command leaves as it was -/

section
variable (s : State)

/-- Forgetting CHAN entries leaves the other two buffers as they are. -/
theorem State.forgetChan_others (n : Nat) : (s.forgetChan n).bits = s.bits ∧ (s.forgetChan n).pay = s.pay := by
  obtain ⟨m, h, -⟩ := s.forgetChan_form n
  rw [h]
  exact ⟨rfl, rfl⟩

/-- Forgetting BITS entries leaves the other two buffers as they are. -/
theorem State.forgetBits_others (n : Nat) : (s.forgetBits n).chan = s.chan ∧ (s.forgetBits n).pay = s.pay := by
  obtain ⟨m, h, -⟩ := s.forgetBits_form n
  rw [h]
  exact ⟨rfl, rfl⟩

/-- Forgetting PAY entries leaves the other two buffers as they are. -/
theorem State.forgetPay_others (n : Nat) : (s.forgetPay n).chan = s.chan ∧ (s.forgetPay n).bits = s.bits := by
  obtain ⟨m, h, -⟩ := s.forgetPay_form n
  rw [h]
  exact ⟨rfl, rfl⟩

/-- Abandoning ENCODE forgets its positions and the sentinel's, or nothing when a check refuses it (R119). -/
theorem State.abandon_encode : s.abandon .encode = s ∨ s.abandon .encode = s.forgetChan (s.bitlen.toNat + 1) := by
  rw [State.abandon]
  split
  · exact .inr rfl
  · exact .inl rfl

/-- Abandoning DECODE forgets the bits up to where it stops, or nothing when a check refuses it (R181). -/
theorem State.abandon_decode : s.abandon .decode = s ∨ s.abandon .decode = s.forgetBits (s.stopFrom s.streamLength 0) := by
  rw [State.abandon]
  split
  · exact .inr rfl
  · exact .inl rfl

/-- An idle engine has no command to abandon. -/
theorem State.abandonRunning_idle (h : s.phase = .idle) : s.abandonRunning = s := by
  simp only [State.abandonRunning, h]

/-- A running command is abandoned. -/
theorem State.abandonRunning_run {i : Instr} (h : s.phase = .run) (hd : decode s.opl = .ok i) :
    s.abandonRunning = s.abandon i := by
  simp only [State.abandonRunning, h, hd]

/-- An ILLEGAL word in OPL has no output to forget. -/
theorem State.abandonRunning_illegal {r : Reject} (h : s.phase = .run) (hd : decode s.opl = .error r) :
    s.abandonRunning = s := by
  simp only [State.abandonRunning, h, hd]

/-- Everything a reset can forget: nothing, or what the command OPL decodes to could have written (R196). -/
theorem State.abandonRunning_cases :
    s.abandonRunning = s ∨ ∃ i, decode s.opl = .ok i ∧ s.abandonRunning = s.abandon i := by
  cases hp : s.phase with
  | idle => exact .inl (s.abandonRunning_idle hp)
  | run =>
    cases hd : decode s.opl with
    | ok i => exact .inr ⟨i, rfl, s.abandonRunning_run hp hd⟩
    | error r => exact .inl (s.abandonRunning_illegal hp hd)

/-- Only ENCODE has CHAN to forget. -/
theorem State.abandon_chan {i : Instr} (h : i ≠ .encode) : (s.abandon i).chan = s.chan := by
  cases i with
  | nop => rfl
  | pack => exact (s.forgetBits_others _).1
  | encode => exact absurd rfl h
  | decode =>
    rcases s.abandon_decode with ha | ha <;> rw [ha]
    exact (s.forgetBits_others _).1
  | unpack => exact (s.forgetPay_others _).1

/-- Only PACK and DECODE have BITS to forget. -/
theorem State.abandon_bits {i : Instr} (hpack : i ≠ .pack) (hdecode : i ≠ .decode) : (s.abandon i).bits = s.bits := by
  cases i with
  | nop => rfl
  | pack => exact absurd rfl hpack
  | encode =>
    rcases s.abandon_encode with ha | ha <;> rw [ha]
    exact (s.forgetChan_others _).1
  | decode => exact absurd rfl hdecode
  | unpack => exact (s.forgetPay_others _).2

/-- Only UNPACK has PAY to forget. -/
theorem State.abandon_pay {i : Instr} (h : i ≠ .unpack) : (s.abandon i).pay = s.pay := by
  cases i with
  | nop => rfl
  | pack => exact (s.forgetBits_others _).2
  | encode =>
    rcases s.abandon_encode with ha | ha <;> rw [ha]
    exact (s.forgetChan_others _).2
  | decode =>
    rcases s.abandon_decode with ha | ha <;> rw [ha]
    exact (s.forgetBits_others _).2
  | unpack => exact absurd rfl h

/-- DECODE stops no later than at a 0, and no later than at the end of the stream. -/
theorem State.stopFrom_le {n p : Nat} (h : s.chanAt p = 0 ∨ n ≤ p) : s.stopFrom n 0 ≤ p := by
  obtain ⟨-, hend, hnonzero, -⟩ := s.stopFrom_spec n 0
  rcases h with hzero | hle
  · by_contra hlt
    exact hnonzero p (Nat.zero_le p) (by omega) hzero
  · omega

/-! ## The reset that is not a power-on -/

/-- With OPL no ENCODE, a reset keeps CHAN. -/
theorem State.warmReset_chan (h : decode s.opl ≠ .ok .encode) : s.warmReset.chan = s.chan := by
  rw [State.warmReset, State.clearRegs_chan]
  rcases s.abandonRunning_cases with ha | ⟨i, hd, ha⟩ <;> rw [ha]
  exact s.abandon_chan fun hi => h (hi ▸ hd)

/-- With OPL neither PACK nor DECODE, a reset keeps BITS. -/
theorem State.warmReset_bits (hpack : decode s.opl ≠ .ok .pack) (hdecode : decode s.opl ≠ .ok .decode) :
    s.warmReset.bits = s.bits := by
  rw [State.warmReset, State.clearRegs_bits]
  rcases s.abandonRunning_cases with ha | ⟨i, hd, ha⟩ <;> rw [ha]
  exact s.abandon_bits (fun hi => hpack (hi ▸ hd)) fun hi => hdecode (hi ▸ hd)

/-- With OPL no UNPACK, a reset keeps PAY. -/
theorem State.warmReset_pay (h : decode s.opl ≠ .ok .unpack) : s.warmReset.pay = s.pay := by
  rw [State.warmReset, State.clearRegs_pay]
  rcases s.abandonRunning_cases with ha | ⟨i, hd, ha⟩ <;> rw [ha]
  exact s.abandon_pay fun hi => h (hi ▸ hd)

/-- A reset of an idle block keeps all three buffers (R198). -/
theorem State.warmReset_idle (h : s.phase = .idle) :
    s.warmReset.chan = s.chan ∧ s.warmReset.bits = s.bits ∧ s.warmReset.pay = s.pay := by
  rw [State.warmReset, s.abandonRunning_idle h]
  exact ⟨rfl, rfl, rfl⟩

section
variable (hp : s.phase = .run)
include hp

/-- A reset of a running block abandons the command and clears the registers (R196). -/
theorem State.warmReset_run {i : Instr} (hd : decode s.opl = .ok i) : s.warmReset = (s.abandon i).clearRegs := by
  rw [State.warmReset, s.abandonRunning_run hp hd]

/-- A reset during PACK keeps BITS from 8·BYTELEN on. -/
theorem State.warmReset_pack_bitAt {i : Nat} (hd : decode s.opl = .ok .pack) (hi : 8 * s.bytelen.toNat ≤ i) :
    s.warmReset.bitAt i = s.bitAt i := by
  rw [s.warmReset_run hp hd]
  exact s.forgetBits_bitAt _ i hi

/-- A reset during ENCODE keeps CHAN above the sentinel's position. -/
theorem State.warmReset_encode_chanAt {i : Nat} (hd : decode s.opl = .ok .encode) (hi : s.bitlen.toNat < i) :
    s.warmReset.chanAt i = s.chanAt i := by
  rw [s.warmReset_run hp hd]
  rcases s.abandon_encode with ha | ha <;> rw [ha]
  · rfl
  · exact s.forgetChan_chanAt _ i hi

/-- A reset during DECODE keeps BITS from a 0 of CHAN, or the end of the stream, on. -/
theorem State.warmReset_decode_bitAt {i p : Nat} (hd : decode s.opl = .ok .decode) (hi : p ≤ i)
    (hstop : s.chanAt p = 0 ∨ s.streamLength ≤ p) : s.warmReset.bitAt i = s.bitAt i := by
  rw [s.warmReset_run hp hd]
  rcases s.abandon_decode with ha | ha <;> rw [ha]
  · rfl
  · exact s.forgetBits_bitAt _ i ((s.stopFrom_le hstop).trans hi)

/-- A reset during UNPACK keeps PAY from BITLEN div 8 on. -/
theorem State.warmReset_unpack_payAt {k : Nat} (hd : decode s.opl = .ok .unpack) (hk : s.bitlen.toNat / 8 ≤ k) :
    s.warmReset.payAt k = s.payAt k := by
  rw [s.warmReset_run hp hd]
  exact s.forgetPay_payAt _ k hk

end

/-- A reset takes nothing off the interleaving and forgets no data already read. -/
theorem State.warmReset_events_reads : s.warmReset.events = s.events ∧ s.warmReset.reads = s.reads := by
  obtain ⟨_, _, _, _, ha, -⟩ := s.abandonRunning_form
  rw [State.warmReset, ha]
  exact ⟨rfl, rfl⟩

end

/-- A reset is performed off the list (R195). -/
theorem step_reset {s t : State} {rest : List Event} (he : s.events = .reset :: rest) (h : step s = .next t) :
    t = { s with events := rest }.warmReset := by
  rw [step_cons he] at h
  exact (Host.Outcome.next.inj h).symm

/-- Settles O44: an idle engine's buffers by `State.warmReset_idle`; for a running one, the buffers its command does not write,
then the entries beyond those it writes. -/
theorem resetKeepsWhatNoCommandWrites : Obligations.ResetKeepsWhatNoCommandWrites := by
  intro s t rest he hstep
  obtain rfl := step_reset he hstep
  obtain ⟨hparams, hpowerOns⟩ := State.warmReset_params_powerOns { s with events := rest }
  obtain ⟨hevents, hreads⟩ := State.warmReset_events_reads { s with events := rest }
  refine ⟨State.warmReset_idle { s with events := rest }, fun hp => ⟨?_, ?_, ?_, ?_, ?_, ?_, ?_⟩,
    hpowerOns, hparams, hevents, hreads⟩
  · exact State.warmReset_chan { s with events := rest }
  · exact State.warmReset_bits { s with events := rest }
  · exact State.warmReset_pay { s with events := rest }
  · exact fun _ => State.warmReset_encode_chanAt { s with events := rest } hp
  · exact fun _ => State.warmReset_pack_bitAt { s with events := rest } hp
  · exact fun _ _ => State.warmReset_decode_bitAt { s with events := rest } hp
  · exact fun _ => State.warmReset_unpack_payAt { s with events := rest } hp

end Sys2Proof.Machine
end

section
/-! SUPPORT. PACK and UNPACK: the bits of a payload byte, the frame of the two commands, and that UNPACK undoes PACK. -/

namespace Sys2Proof.Machine

/-! ## The bits of a byte -/

/-- Bit j of a payload byte is its binary digit j (R101). -/
theorem State.toNat_payBit (s : State) (k j : Nat) : (s.payBit k j).toNat = (s.payAt k).toNat / 2 ^ j % 2 := by
  rw [State.payBit, BitVec.extractLsb'_toNat, Nat.shiftRight_eq_div_pow, Nat.pow_one]

/-- A byte is its eight bits, the most significant first (R146). -/
theorem append_bits_eq (x : Byte) :
    x.extractLsb' 7 1 ++ x.extractLsb' 6 1 ++ x.extractLsb' 5 1 ++ x.extractLsb' 4 1 ++
      x.extractLsb' 3 1 ++ x.extractLsb' 2 1 ++ x.extractLsb' 1 1 ++ x.extractLsb' 0 1 = x := by
  revert x
  decide

/-- Eight bits that are those of a payload byte, in PACK's order, make up that byte (R149). -/
theorem State.bitsByte_eq_payAt {s v : State} {k : Nat}
    (h : ∀ j, j < 8 → v.bitAt (8 * k + j) = s.payBit k (7 - j)) : v.bitsByte k = s.payAt k := by
  have h0 : v.bitAt (8 * k) = s.payBit k 7 := h 0 (by decide)
  rw [State.bitsByte, h0, h 1 (by decide), h 2 (by decide), h 3 (by decide), h 4 (by decide), h 5 (by decide),
    h 6 (by decide), h 7 (by decide)]
  exact append_bits_eq (s.payAt k)

/-! ## PACK -/

/-- The BITLEN that PACK writes is exact, since BYTELEN is legal (R6, R34). -/
theorem State.toNat_packedBitlen {s : State} (hp : s.params.Legal) (hn : s.bytelen.toNat ≤ s.params.maxPay) :
    (BitVec.ofNat 32 (8 * s.bytelen.toNat)).toNat = 8 * s.bytelen.toNat := by
  obtain ⟨-, -, -, hbits⟩ := hp
  rw [Params.maxBits] at hbits
  rw [BitVec.toNat_ofNat, Nat.mod_eq_of_lt (by omega)]

/-- PACK by payload bytes: bit 7 − j of PAY[k] at BITS[8k + j], every other entry as it was, and the rest of the state (R101). -/
theorem exec_pack_by_bytes (s : State) :
    ∃ t, exec .pack s = .next t ∧
      (∀ k j, k < s.bytelen.toNat → j < 8 → t.bitAt (8 * k + j) = s.payBit k (7 - j)) ∧
      (∀ i, 8 * s.bytelen.toNat ≤ i → t.bitAt i = s.bitAt i) ∧
      t.bitlen = BitVec.ofNat 32 (8 * s.bytelen.toNat) ∧
      t = { s with
        bits := t.bits, bitlen := t.bitlen, pos := t.pos, phase := .idle
        status := { busy := false, done := true, result := 0, busyErr := s.status.busyErr } } := by
  obtain ⟨m, h, hbit, -⟩ := exec_pack s
  refine ⟨_, h, fun k j hk hj => ?_, fun i hi => ?_, rfl, rfl⟩
  · have hdiv : (8 * k + j) / 8 = k := by omega
    have hmod : (8 * k + j) % 8 = j := by omega
    have hb := hbit (8 * k + j)
    rw [if_pos (by omega), hdiv, hmod] at hb
    exact hb
  · have hb := hbit i
    rw [if_neg (by omega)] at hb
    exact hb

/-- Settles O22, by `exec_pack_by_bytes` with its bits and its BITLEN read as numbers. -/
theorem packSerializesThePayload : Obligations.PackSerializesThePayload := by
  intro s hp hn
  obtain ⟨t, h, hbits, hrest, hlen, hframe⟩ := exec_pack_by_bytes s
  refine ⟨t, h, fun k j hk hj => ?_, hrest, ?_, hframe⟩
  · rw [hbits k j hk hj, State.toNat_payBit]
  · rw [hlen, State.toNat_packedBitlen hp hn]

/-! ## PACK and UNPACK together -/

/-- Settles O34: by `exec_pack` and `exec_unpack` what each leaves is fixed by fields other than the grid's. -/
theorem packAndUnpackIgnoreTheGrid : Obligations.PackAndUnpackIgnoreTheGrid := by
  intro s w h c
  constructor
  · obtain ⟨_, ht, hbit, -⟩ := exec_pack s
    obtain ⟨_, hu, hbit', -⟩ := exec_pack { s with width := w, height := h, channels := c }
    exact ⟨_, _, ht, hu, rfl, rfl, fun i => (hbit' i).trans (hbit i).symm⟩
  · obtain ⟨_, ht, hpay, -⟩ := exec_unpack s
    obtain ⟨_, hu, hpay', -⟩ := exec_unpack { s with width := w, height := h, channels := c }
    exact ⟨_, _, ht, hu, rfl, rfl, fun k => (hpay' k).trans (hpay k).symm⟩

/-- UNPACK of n whole bytes of bits that are those of s's payload, in PACK's order, gives the payload's first n bytes (R149). -/
theorem exec_unpack_of_payBits {s v : State} {n : Nat} (hlen : v.bitlen.toNat = 8 * n)
    (hbits : ∀ k j, k < n → j < 8 → v.bitAt (8 * k + j) = s.payBit k (7 - j)) :
    ∃ u, exec .unpack v = .next u ∧ u.bytelen = BitVec.ofNat 32 n ∧ ∀ k, k < n → u.payAt k = s.payAt k := by
  obtain ⟨m, h, hpay, -⟩ := exec_unpack v
  have hbytes : v.bitlen.toNat / 8 = n := by omega
  rw [hbytes] at h hpay
  refine ⟨_, h, rfl, fun k hk => ?_⟩
  have hread := hpay k
  rw [if_pos hk, State.bitsByte_eq_payAt fun j => hbits k j hk] at hread
  exact hread

/-- Settles O36: PACK leaves the payload's bits and their exact number, and `exec_unpack_of_payBits` reads them back. -/
theorem unpackUndoesPack : Obligations.UnpackUndoesPack := by
  intro s hp hn
  obtain ⟨t, ht, hpacked, -, hlen, -⟩ := exec_pack_by_bytes s
  have hlen_nat : t.bitlen.toNat = 8 * s.bytelen.toNat := by rw [hlen, State.toNat_packedBitlen hp hn]
  refine ⟨t, ht, fun v hvlen hvbits => ?_⟩
  obtain ⟨u, hu, hbytelen, hpay⟩ := exec_unpack_of_payBits (s := s) (v := v) (n := s.bytelen.toNat)
    (by rw [hvlen, hlen_nat]) fun k j hk hj => by rw [hvbits _ (by omega), hpacked k j hk hj]
  exact ⟨u, hu, by rw [hbytelen, BitVec.ofNat_toNat, BitVec.setWidth_eq], hpay⟩

end Sys2Proof.Machine
end

section
/-! SUPPORT. The completion step of a command and its beats (R209): beats that follow a counted loop leave what the loop leaves,
and DECODE's beats follow its loop to where it stops. -/

namespace Sys2Proof.Machine

/-! ## Running beats -/

/-- No beat is made when the engine is idle (R189). -/
theorem runBeats_idle (beat : State → State) (n : Nat) {s : State} (h : s.phase = .idle) : runBeats beat n s = s := by
  cases n with
  | zero => rfl
  | succ n => simp only [runBeats, h]

/-- A running engine makes a beat. -/
theorem runBeats_run (beat : State → State) (n : Nat) {s : State} (h : s.phase = .run) :
    runBeats beat (n + 1) s = runBeats beat n (beat s) := by
  simp only [runBeats, h]

/-- A POS that is n already is left as it is by `POS <- n`. -/
theorem State.setPos_of_pos {s : State} {n : Nat} (h : s.pos = n) : s.setPos n = s := by
  subst h
  rfl

section
variable {beat : State → State} {loop : Nat → State} {n : Nat} (hpos : (loop 0).pos = 0)
  (hrun : ∀ i, (loop i).phase = .run)
  (hbeat : ∀ i, i < n → beat ((loop i).setPos i) = (loop (i + 1)).setPos (i + 1))
include hpos hrun hbeat

/-- When each of n beats makes the next turn of a loop and advances POS, n beats make n turns and leave POS at n. -/
theorem runBeats_loop (k : Nat) : runBeats beat (n + k) (loop 0) = runBeats beat k ((loop n).setPos n) := by
  induction n generalizing k with
  | zero => rw [Nat.zero_add, State.setPos_of_pos hpos]
  | succ n ih =>
    rw [Nat.add_right_comm, Nat.add_assoc, ih fun i hi => hbeat i (Nat.lt_succ_of_lt hi),
      runBeats_run beat k (s := (loop n).setPos n) (hrun n), hbeat n (Nat.lt_succ_self n)]

/-- The beat after the last turn is the last one that R206 counts. -/
theorem runBeats_loop_last : runBeats beat (n + 1) (loop 0) = beat ((loop n).setPos n) := by
  rw [runBeats_loop hpos hrun hbeat, runBeats_run beat 0 (s := (loop n).setPos n) (hrun n), runBeats]

end

/-! ## PACK's beats -/

/-- PACK's loop by bit positions: `for i in 0 .. n-1: BITS[i] <- PAY[i div 8][7 - (i mod 8)]` (R102). -/
def State.packBitLoop (s : State) (n : Nat) : State :=
  forUpTo n (fun i t => t.setBit i (t.payBit (i / 8) (7 - i % 8))) s

/-- 8·n turns by positions are n turns by bytes. -/
theorem State.packBitLoop_eq (s : State) (n : Nat) : s.packBitLoop (8 * n) = s.packLoop n := (s.packLoop_eq n).symm

theorem State.packBitLoop_frame (s : State) (n : Nat) :
    (s.packBitLoop n).phase = s.phase ∧ (s.packBitLoop n).bytelen = s.bytelen := by
  obtain ⟨m, h, -⟩ := s.bitsLoop_form n (fun i t => t.setBit i (t.payBit (i / 8) (7 - i % 8))) fun _ _ => ⟨_, rfl⟩
  rw [State.packBitLoop, h]
  exact ⟨rfl, rfl⟩

theorem packBeat_data {t : State} {i : Nat} (h : i < 8 * t.bytelen.toNat) :
    packBeat (t.setPos i) = (t.setBit i (t.payBit (i / 8) (7 - i % 8))).setPos (i + 1) := if_pos h

theorem packBeat_last {t : State} {n : Nat} (h : n = 8 * t.bytelen.toNat) :
    packBeat (t.setPos n) = ((t.setPos n).setBitlen n).complete .ok := by
  subst h
  exact if_neg (Nat.lt_irrefl _)

/-- PACK's beats leave what its completion step leaves (R102). -/
theorem execByBeats_pack {s : State} (hrun : s.phase = .run) (hpos : s.pos = 0) :
    exec .pack s = .next (execByBeats .pack s) := by
  have hphase i : (s.packBitLoop i).phase = .run := (s.packBitLoop_frame i).1.trans hrun
  have hbytelen i : (s.packBitLoop i).bytelen = s.bytelen := (s.packBitLoop_frame i).2
  have hbeats := runBeats_loop_last (beat := packBeat) (loop := s.packBitLoop) (n := 8 * s.bytelen.toNat) hpos hphase
    fun i hi => packBeat_data (by rwa [hbytelen])
  rw [packBeat_last (by rw [hbytelen]), State.packBitLoop_eq] at hbeats
  exact congrArg Host.Outcome.next hbeats.symm

/-! ## UNPACK's beats -/

theorem State.unpackLoop_frame (s : State) (g : Nat) :
    (s.unpackLoop g).phase = s.phase ∧ (s.unpackLoop g).bitlen = s.bitlen := by
  obtain ⟨m, h, -⟩ := s.unpackLoop_form g
  rw [h]
  exact ⟨rfl, rfl⟩

theorem unpackBeat_data {t : State} {i : Nat} (h : i < t.bitlen.toNat / 8) :
    unpackBeat (t.setPos i) = (t.setPay i (t.bitsByte i)).setPos (i + 1) := if_pos h

theorem unpackBeat_last {t : State} {g : Nat} (h : g = t.bitlen.toNat / 8) :
    unpackBeat (t.setPos g) = ((t.setPos g).setBytelen g).complete .ok := by
  subst h
  exact if_neg (Nat.lt_irrefl _)

/-- UNPACK's beats leave what its completion step leaves (R148). -/
theorem execByBeats_unpack {s : State} (hrun : s.phase = .run) (hpos : s.pos = 0) :
    exec .unpack s = .next (execByBeats .unpack s) := by
  have hphase i : (s.unpackLoop i).phase = .run := (s.unpackLoop_frame i).1.trans hrun
  have hbitlen i : (s.unpackLoop i).bitlen = s.bitlen := (s.unpackLoop_frame i).2
  have hbeats := runBeats_loop_last (beat := unpackBeat) (loop := s.unpackLoop) (n := s.bitlen.toNat / 8) hpos hphase
    fun i hi => unpackBeat_data (by rwa [hbitlen])
  rw [unpackBeat_last (by rw [hbitlen])] at hbeats
  exact congrArg Host.Outcome.next hbeats.symm

/-! ## ENCODE's beats -/

theorem State.encodeLoop_frame (s : State) (n : Nat) :
    (s.encodeLoop n).phase = s.phase ∧ (s.encodeLoop n).bitlen = s.bitlen := by
  obtain ⟨m, h, -⟩ := s.encodeLoop_form n
  rw [h]
  exact ⟨rfl, rfl⟩

theorem encodeBeat_data {t : State} {i : Nat} (h : i < t.bitlen.toNat) :
    encodeBeat (t.setPos i) = (t.setChan i (adjust (t.chanAt i) (t.bitAt i))).setPos (i + 1) := if_pos h

theorem encodeBeat_sentinel {t : State} {n : Nat} (h : n = t.bitlen.toNat) :
    encodeBeat (t.setPos n) = ((t.setPos n).setChan n 0).complete .ok := by
  subst h
  exact if_neg (Nat.lt_irrefl _)

theorem encodeCheckBeat_refused {s : State} {c : Code} (h : s.gridRefusal = some c) :
    encodeCheckBeat s = s.complete c := by
  simp only [encodeCheckBeat, h]

theorem encodeCheckBeat_exceeded {s : State} (h : s.gridRefusal = none) (hc : s.capacity < (s.bitlen.toNat : Int)) :
    encodeCheckBeat s = s.capacityExceeded := by
  simp only [encodeCheckBeat, h, if_pos hc]

theorem encodeCheckBeat_passed {s : State} (h : s.gridRefusal = none) (hc : (s.bitlen.toNat : Int) ≤ s.capacity) :
    encodeCheckBeat s = s := by
  simp only [encodeCheckBeat, h, if_neg (not_lt.2 hc)]

/-- ENCODE's beats leave what its completion step leaves: a check that fails ends the command at the check beat (R121). -/
theorem execByBeats_encode {s : State} (hrun : s.phase = .run) (hpos : s.pos = 0) :
    exec .encode s = .next (execByBeats .encode s) := by
  rw [execByBeats]
  cases hg : s.gridRefusal with
  | some c => rw [exec_encode_refused hg, encodeCheckBeat_refused hg, runBeats_idle encodeBeat _ (State.complete_phase s c)]
  | none =>
    rcases lt_or_ge s.capacity (s.bitlen.toNat : Int) with hc | hc
    · rw [exec_encode_exceeded hg hc, encodeCheckBeat_exceeded hg hc, runBeats_idle encodeBeat _ rfl]
    · have hphase i : (s.encodeLoop i).phase = .run := (s.encodeLoop_frame i).1.trans hrun
      have hbitlen i : (s.encodeLoop i).bitlen = s.bitlen := (s.encodeLoop_frame i).2
      have hbeats := runBeats_loop_last (beat := encodeBeat) (loop := s.encodeLoop) (n := s.bitlen.toNat) hpos hphase
        fun i hi => encodeBeat_data (by rwa [hbitlen])
      rw [encodeBeat_sentinel (by rw [hbitlen])] at hbeats
      rw [encodeCheckBeat_passed hg hc]
      refine Eq.trans ?_ (congrArg Host.Outcome.next hbeats.symm)
      simp only [exec, execEncode, hg, if_neg (not_lt.2 hc)]

/-! ## DECODE's beats -/

/-- DECODE's loop carries its position itself: POS where it starts does not matter. -/
theorem State.decodeLoop_setPos (s : State) (q k p : Nat) : (s.setPos q).decodeLoop k p = s.decodeLoop k p := by
  induction k generalizing s p with
  | zero => rfl
  | succ k ih =>
    have hnext := ih (s.setBit p (parityBit (s.chanAt p))) (p + 1)
    simp only [State.decodeLoop, State.chanAt_setPos]
    exact if_congr Iff.rfl rfl hnext

section
variable {s : State}

theorem decodeBeat_end (h : s.pos = s.streamLength) :
    decodeBeat s = (s.setBitlen s.pos).complete .malformedEncoding := if_pos h

theorem decodeBeat_zero (h : s.pos ≠ s.streamLength) (hz : s.chanAt s.pos = 0) :
    decodeBeat s = (s.setBitlen s.pos).complete .ok := by
  rw [decodeBeat, if_neg h, if_pos hz]

theorem decodeBeat_data (h : s.pos ≠ s.streamLength) (hz : s.chanAt s.pos ≠ 0) :
    decodeBeat s = (s.setBit s.pos (parityBit (s.chanAt s.pos))).setPos (s.pos + 1) := by
  rw [decodeBeat, if_neg h, if_neg hz]

end

/-- DECODE's beats from POS on, with k positions left: they follow its loop, and no beat is made after the one that stops it. -/
theorem runBeats_decodeBeat {s : State} (k : Nat) (hrun : s.phase = .run) (hk : s.pos + k = s.streamLength) :
    runBeats decodeBeat (k + 1) s = s.decodeLoop k s.pos := by
  induction k generalizing s with
  | zero =>
    rw [runBeats_run _ _ hrun, decodeBeat_end hk]
    rfl
  | succ k ih =>
    have hmore : s.pos ≠ s.streamLength := by omega
    rw [runBeats_run _ _ hrun, State.decodeLoop]
    by_cases hz : s.chanAt s.pos = 0
    · rw [decodeBeat_zero hmore hz, if_pos hz, runBeats_idle _ _ rfl]
      rfl
    · have hnext : s.pos + 1 + k = s.streamLength := by omega
      rw [decodeBeat_data hmore hz, if_neg hz,
        ih (s := (s.setBit s.pos (parityBit (s.chanAt s.pos))).setPos (s.pos + 1)) hrun hnext, State.decodeLoop_setPos]
      rfl

theorem decodeCheckBeat_refused {s : State} {c : Code} (h : s.gridRefusal = some c) :
    decodeCheckBeat s = s.complete c := by
  simp only [decodeCheckBeat, h]

theorem decodeCheckBeat_passed {s : State} (h : s.gridRefusal = none) : decodeCheckBeat s = s := by
  simp only [decodeCheckBeat, h]

/-- DECODE's beats leave what its completion step leaves (R137). -/
theorem execByBeats_decode {s : State} (hrun : s.phase = .run) (hpos : s.pos = 0) :
    exec .decode s = .next (execByBeats .decode s) := by
  rw [execByBeats]
  cases hg : s.gridRefusal with
  | some c => rw [exec_decode_refused hg, decodeCheckBeat_refused hg, runBeats_idle decodeBeat _ (State.complete_phase s c)]
  | none =>
    have hstream : s.pos + s.streamLength = s.streamLength := by rw [hpos, Nat.zero_add]
    rw [decodeCheckBeat_passed hg, runBeats_decodeBeat s.streamLength hrun hstream, hpos]
    simp only [exec, execDecode, hg]

/-- Settles O39, command by command. -/
theorem completionStepIsItsBeats : Obligations.CompletionStepIsItsBeats := by
  intro i s hrun hpos
  cases i with
  | nop => exact exec_nop s
  | pack => exact execByBeats_pack hrun hpos
  | encode => exact execByBeats_encode hrun hpos
  | decode => exact execByBeats_decode hrun hpos
  | unpack => exact execByBeats_unpack hrun hpos

end Sys2Proof.Machine
end

section
/-! SUPPORT. ENCODE (R110 to R125): what Adjust gives, what each completion of ENCODE leaves, and DECODE of an encoded stream. -/

namespace Sys2Proof.Machine

/-! ## Adjust -/

theorem forceNonzero_of_ne_zero {v : Byte} (h : v ≠ 0) : forceNonzero v = v := if_neg h

/-- The value after zero forcing, as a number (R112). -/
theorem toNat_forceNonzero (v : Byte) : (forceNonzero v).toNat = if v = 0 then 1 else v.toNat :=
  apply_ite BitVec.toNat (v = 0) 1 v

theorem toNat_forceNonzero_pos (v : Byte) : 1 ≤ (forceNonzero v).toNat := by
  rw [toNat_forceNonzero]
  split
  · exact Nat.le_refl 1
  · next h => exact Nat.pos_of_ne_zero fun h0 => h (BitVec.eq_of_toNat_eq h0)

section
variable {v : Byte} {b : Bit}

/-- A value of the wanted parity is kept (R113). -/
theorem adjust_kept (h : (forceNonzero v).toNat % 2 = 0 ↔ b = 1) : adjust v b = forceNonzero v := if_pos h

/-- A value of the other parity is decremented above the pivot 128 (R114). -/
theorem adjust_decremented (h : ¬((forceNonzero v).toNat % 2 = 0 ↔ b = 1)) (hv : 128 < (forceNonzero v).toNat) :
    adjust v b = forceNonzero v - 1 := by
  rw [adjust, if_neg h, if_pos hv]

/-- A value of the other parity is incremented at or below the pivot 128 (R114). -/
theorem adjust_incremented (h : ¬((forceNonzero v).toNat % 2 = 0 ↔ b = 1)) (hv : (forceNonzero v).toNat ≤ 128) :
    adjust v b = forceNonzero v + 1 := by
  rw [adjust, if_neg h, if_neg (Nat.not_lt.2 hv)]

end

/-- Adjust in exact numbers: which of its three branches is taken, and what it gives without wrapping (R113, R114, R122). -/
theorem toNat_adjust_cases (v : Byte) (b : Bit) :
    (((forceNonzero v).toNat % 2 = 0 ↔ b = 1) ∧ (adjust v b).toNat = (forceNonzero v).toNat) ∨
    (¬((forceNonzero v).toNat % 2 = 0 ↔ b = 1) ∧
      ((128 < (forceNonzero v).toNat ∧ (adjust v b).toNat = (forceNonzero v).toNat - 1) ∨
        ((forceNonzero v).toNat ≤ 128 ∧ (adjust v b).toNat = (forceNonzero v).toNat + 1))) := by
  by_cases h : (forceNonzero v).toNat % 2 = 0 ↔ b = 1
  · exact .inl ⟨h, by rw [adjust_kept h]⟩
  · refine .inr ⟨h, ?_⟩
    rcases Nat.lt_or_ge 128 (forceNonzero v).toNat with hv | hv
    · exact .inl ⟨hv, by rw [adjust_decremented h hv]; bv_omega⟩
    · exact .inr ⟨hv, by rw [adjust_incremented h hv]; bv_omega⟩

/-- No adjusted value is 0, so none is taken for the sentinel (R115). -/
theorem toNat_adjust_pos (v : Byte) (b : Bit) : 1 ≤ (adjust v b).toNat := by
  have hpos := toNat_forceNonzero_pos v
  rcases toNat_adjust_cases v b with ⟨-, h⟩ | ⟨-, ⟨hv, h⟩ | ⟨-, h⟩⟩ <;> omega

theorem adjust_ne_zero (v : Byte) (b : Bit) : adjust v b ≠ 0 := fun h => by
  have hpos := toNat_adjust_pos v b
  rw [h] at hpos
  exact absurd hpos (by decide)

/-- An adjusted value is even exactly for bit 1: a change by one turns the parity round (R115). -/
theorem adjust_even_iff (v : Byte) (b : Bit) : (adjust v b).toNat % 2 = 0 ↔ b = 1 := by
  rcases toNat_adjust_cases v b with ⟨hp, h⟩ | ⟨hp, ⟨hv, h⟩ | ⟨-, h⟩⟩
  · rw [h, hp]
  all_goals
    have hturned : (adjust v b).toNat % 2 = 0 ↔ ¬(forceNonzero v).toNat % 2 = 0 := by omega
    rw [hturned, not_iff.1 hp]

/-- DECODE's parity of an adjusted value is the bit that was adjusted to (R132). -/
theorem parityBit_adjust (v : Byte) (b : Bit) : parityBit (adjust v b) = b := by
  rw [parityBit, if_congr (adjust_even_iff v b) rfl rfl]
  split
  · next hb => exact hb.symm
  · next hb => exact ((BitVec.eq_zero_or_eq_one b).resolve_right hb).symm

/-- Settles O24: the three branches of `toNat_adjust_cases`, with v1 the value after zero forcing. -/
theorem adjustNeverWraps : Obligations.AdjustNeverWraps := by
  intro v b
  refine ⟨(forceNonzero v).toNat, toNat_forceNonzero v, ?_⟩
  rcases toNat_adjust_cases v b with ⟨-, h⟩ | ⟨-, ⟨hv, h⟩ | ⟨hv, h⟩⟩
  · exact .inl h
  · exact .inr (.inl ⟨hv, h, by omega⟩)
  · exact .inr (.inr ⟨hv, h, by omega⟩)

/-- Adjust changes a value by at most 1, and the value 0 by at most 2 (R115). -/
theorem adjust_distance (v : Byte) (b : Bit) :
    (v.toNat : Int) - (adjust v b).toNat ≤ 1 ∧ ((adjust v b).toNat : Int) - v.toNat ≤ if v = 0 then 2 else 1 := by
  obtain ⟨v1, hv1, h⟩ := adjustNeverWraps v b
  by_cases h0 : v = 0
  · rw [if_pos h0] at hv1 ⊢
    have hv : v.toNat = 0 := by rw [h0]; rfl
    omega
  · rw [if_neg h0] at hv1 ⊢
    omega

section
variable {v : Byte} (h0 : v ≠ 0)
include h0

/-- Adjust of a nonzero value, for the bit b whose parity it has and the bit c whose parity it has not (R113, R114). -/
theorem adjust_of_ne_zero {b c : Bit} (hb : v.toNat % 2 = 0 ↔ b = 1) (hc : ¬(v.toNat % 2 = 0 ↔ c = 1)) :
    adjust v b = v ∧ (v.toNat ≤ 128 → adjust v c = v + 1) ∧ (128 < v.toNat → adjust v c = v - 1) := by
  have hv := forceNonzero_of_ne_zero h0
  refine ⟨?_, fun hle => ?_, fun hlt => ?_⟩
  · rw [adjust_kept (by rwa [hv]), hv]
  · rw [adjust_incremented (by rwa [hv]) (by rwa [hv]), hv]
  · rw [adjust_decremented (by rwa [hv]) (by rwa [hv]), hv]

/-- R115's rows for the odd values: bit 0 keeps them, bit 1 moves them. -/
theorem adjust_of_odd (hodd : v.toNat % 2 = 1) :
    adjust v 0 = v ∧ (v.toNat ≤ 128 → adjust v 1 = v + 1) ∧ (128 < v.toNat → adjust v 1 = v - 1) :=
  adjust_of_ne_zero h0 (iff_of_false (by omega) (by decide)) fun h => absurd (h.2 rfl) (by omega)

/-- R115's rows for the even values: bit 1 keeps them, bit 0 moves them. -/
theorem adjust_of_even (heven : v.toNat % 2 = 0) :
    adjust v 1 = v ∧ (v.toNat ≤ 128 → adjust v 0 = v + 1) ∧ (128 < v.toNat → adjust v 0 = v - 1) :=
  adjust_of_ne_zero h0 (iff_of_true heven rfl) fun h => absurd (h.1 heven) (by decide)

end

/-- Settles O23: its rows by `adjust_of_odd` and `adjust_of_even`, its ranges by the parity of what Adjust gives. -/
theorem adjustFollowsTheCaseTable : Obligations.AdjustFollowsTheCaseTable := by
  intro v
  have ne_zero (h : 1 ≤ v.toNat) : v ≠ 0 := fun h0 => by rw [h0] at h; exact absurd h (by decide)
  have hone := (adjust_even_iff v 1).2 rfl
  have hzero := mt (adjust_even_iff v 0).1 (by decide)
  have hone_pos := toNat_adjust_pos v 1
  have hone_lt := (adjust v 1).isLt
  refine ⟨fun h => by rw [h]; decide, fun hodd hle => ?_, fun h => by rw [h]; decide, fun hodd hge => ?_,
    fun heven hge hle => ?_, fun heven hge => ?_, hone, by omega, by omega, by omega, toNat_adjust_pos v 0,
    adjust_distance v, by decide⟩
  · obtain ⟨hkept, hup, -⟩ := adjust_of_odd (ne_zero (by omega)) hodd
    exact ⟨hup (by omega), hkept⟩
  · obtain ⟨hkept, -, hdown⟩ := adjust_of_odd (ne_zero (by omega)) hodd
    exact ⟨hdown (by omega), hkept⟩
  · obtain ⟨hkept, hup, -⟩ := adjust_of_even (ne_zero (by omega)) heven
    exact ⟨hkept, hup (by omega)⟩
  · obtain ⟨hkept, -, hdown⟩ := adjust_of_even (ne_zero (by omega)) heven
    exact ⟨hkept, hdown (by omega)⟩

/-! ## How ENCODE completes -/

/-- A BITLEN is within the capacity exactly when the sentinel has a position left (R118). -/
theorem State.bitlen_le_capacity_iff (s : State) : (s.bitlen.toNat : Int) ≤ s.capacity ↔ s.bitlen.toNat + 1 ≤ s.streamLength := by
  rw [State.capacity]
  omega

/-- The three ways ENCODE completes: the grid refused, the capacity exceeded, or every check passed (R111). -/
theorem exec_encode_cases {s t : State} (h : exec .encode s = .next t) :
    (∃ c, s.gridRefusal = some c ∧ t = s.complete c) ∨ t = s.capacityExceeded ∨
    (t.status.result = 0 ∧ ∀ i, t.chanAt i =
      if i < s.bitlen.toNat then adjust (s.chanAt i) (s.bitAt i) else if i = s.bitlen.toNat then 0 else s.chanAt i) := by
  have next_eq : ∀ u, exec .encode s = .next u → t = u := fun u hu => Host.Outcome.next.inj (h.symm.trans hu)
  cases hg : s.gridRefusal with
  | some c => exact .inl ⟨c, rfl, next_eq _ (exec_encode_refused hg)⟩
  | none =>
    rcases lt_or_ge s.capacity (s.bitlen.toNat : Int) with hc | hc
    · exact .inr (.inl (next_eq _ (exec_encode_exceeded hg hc)))
    · obtain ⟨_, hm, hchan, -⟩ := exec_encode_ok hg hc
      obtain rfl := next_eq _ hm
      exact .inr (.inr ⟨rfl, hchan⟩)

/-- A refused grid never completes with RESULT 0 (R170). -/
theorem State.gridRefusal_toBits_ne_zero {s : State} {c : Code} (h : s.gridRefusal = some c) : c.toBits ≠ 0 := by
  rcases State.gridRefusal_code h with rfl | rfl <;> decide

/-- Settles O25: R111's checks pass, and `exec_encode_ok` says what each position then holds. -/
theorem encodeWritesParitiesAndSentinel : Obligations.EncodeWritesParitiesAndSentinel := by
  intro s hch hN hfit
  obtain ⟨m, h, hchan, -⟩ := exec_encode_ok (s.gridRefusal_eq_none.2 ⟨hch, hN⟩) (s.bitlen_le_capacity_iff.2 hfit)
  refine ⟨_, h, fun i hi => ?_, ?_, fun i hi => ?_, rfl⟩
  · exact (hchan i).trans (if_pos hi)
  · exact (hchan _).trans ((if_neg (Nat.lt_irrefl _)).trans (if_pos rfl))
  · exact (hchan i).trans ((if_neg (Nat.lt_asymm hi)).trans (if_neg (Nat.ne_of_gt hi)))

/-- Settles O26: RESULT 0 leaves only the third way of `exec_encode_cases`, and an adjusted value has its bit's parity. -/
theorem encodedParitiesAndFirstZero : Obligations.EncodedParitiesAndFirstZero := by
  intro s t h hr
  obtain ⟨c, hg, rfl⟩ | rfl | ⟨-, hchan⟩ := exec_encode_cases h
  · exact absurd hr (State.gridRefusal_toBits_ne_zero hg)
  · exact absurd hr (by decide : Code.capacityExceeded.toBits ≠ 0)
  · refine ⟨fun i hi => ?_, ?_⟩
    · rw [hchan i, if_pos hi]
      exact ⟨toNat_adjust_pos _ _, adjust_even_iff _ _⟩
    · rw [hchan, if_neg (Nat.lt_irrefl _), if_pos rfl]

/-! ## The capacity boundary -/

/-- ENCODE of an admitted grid without room for the sentinel reports the capacity as exceeded (R118). -/
theorem exec_encode_without_room {s : State} (hch : s.channels = 3) (hN : s.streamLength ≤ s.params.maxChan)
    (hfull : s.streamLength ≤ s.bitlen.toNat) : exec .encode s = .next s.capacityExceeded :=
  exec_encode_exceeded (s.gridRefusal_eq_none.2 ⟨hch, hN⟩)
    (not_le.1 (mt s.bitlen_le_capacity_iff.1 (Nat.not_le.2 (Nat.lt_succ_of_le hfull))))

/-- Settles O29: N − 1 bits are O25's case, and from N bits on the report holds the capacity modulo 2^32. -/
theorem capacityBoundaryIsExact : Obligations.CapacityBoundaryIsExact := by
  intro s hch hN
  have hword := s.capacityWord_toNat
  refine ⟨fun hfit => ?_, fun hlen hpos => ?_, fun hempty => ?_⟩
  · obtain ⟨t, h, -, hsentinel, -, hframe⟩ := encodeWritesParitiesAndSentinel s hch hN hfit.le
    refine ⟨t, h, by rw [hframe], ?_⟩
    rw [← hfit, Nat.add_sub_cancel]
    exact hsentinel
  · have hN_eq : s.streamLength = s.bitlen.toNat := hlen.symm
    refine ⟨_, exec_encode_without_room hch hN hN_eq.le, rfl, rfl, ?_, rfl⟩
    have hlt := s.bitlen.isLt
    show s.capacityWord.toNat + 1 = s.streamLength
    omega
  · have hN_zero : s.streamLength = 0 := by rw [State.streamLength, Nat.mul_assoc, hempty]
    refine ⟨_, exec_encode_without_room hch hN (by omega), rfl, rfl, BitVec.eq_of_toNat_eq ?_, rfl⟩
    show s.capacityWord.toNat = 0xFFFFFFFF
    omega

/-! ## Refused commands -/

/-- A command that completes with a nonzero code has only completed, or reported the capacity, or is a DECODE that found no
sentinel (R111, R134, R176, R177). -/
theorem exec_refused {i : Instr} {s t : State} (h : exec i s = .next t) (hr : t.status.result ≠ 0) :
    (∃ c, t = s.complete c) ∨ t = s.capacityExceeded ∨ (i = .decode ∧ t.status.result = 2) := by
  have next_eq : ∀ u, exec i s = .next u → t = u := fun u hu => Host.Outcome.next.inj (h.symm.trans hu)
  cases i with
  | nop => exact .inl ⟨_, next_eq _ (exec_nop s)⟩
  | pack =>
    obtain ⟨_, hm, -⟩ := exec_pack s
    obtain rfl := next_eq _ hm
    exact absurd rfl hr
  | encode =>
    obtain ⟨c, -, ht⟩ | ht | ⟨hok, -⟩ := exec_encode_cases h
    · exact .inl ⟨c, ht⟩
    · exact .inr (.inl ht)
    · exact absurd hok hr
  | decode =>
    cases hg : s.gridRefusal with
    | some c => exact .inl ⟨c, next_eq _ (exec_decode_refused hg)⟩
    | none =>
      obtain ⟨_, hm, -⟩ := exec_decode_run hg
      obtain rfl := next_eq _ hm
      by_cases hstop : s.stopFrom s.streamLength 0 < s.streamLength
      · rw [if_pos hstop] at hr
        exact absurd rfl hr
      · rw [if_neg hstop]
        exact .inr (.inr ⟨rfl, rfl⟩)
  | unpack =>
    obtain ⟨_, hm, -⟩ := exec_unpack s
    obtain rfl := next_eq _ hm
    exact absurd rfl hr

/-- Settles O33, by the ways `exec_refused` leaves. -/
theorem refusedCommandsWriteNothing : Obligations.RefusedCommandsWriteNothing := by
  intro i s t h hr
  obtain ⟨c, rfl⟩ | rfl | ⟨hi, hmalformed⟩ := exec_refused h hr
  · exact ⟨fun _ => ⟨rfl, fun _ => rfl⟩, fun _ => ⟨rfl, fun _ => ⟨rfl, rfl⟩⟩⟩
  · exact ⟨fun _ => ⟨rfl, fun _ => rfl⟩, fun _ => ⟨rfl, fun hne => absurd rfl hne⟩⟩
  · exact ⟨fun he => absurd (hi.symm.trans he) (by decide), fun hne => absurd hmalformed hne⟩

/-! ## DECODE of an encoded stream -/

/-- DECODE of an accepted grid whose first 0 is at p: the p parities before it, BITLEN p, and nothing else but POS (R131, R133). -/
theorem exec_decode_of_first_zero {s : State} {p : Nat} (hg : s.gridRefusal = none) (hp : p < s.streamLength)
    (hzero : s.chanAt p = 0) (hbefore : ∀ q, q < p → s.chanAt q ≠ 0) :
    ∃ t, exec .decode s = .next t ∧
      (∀ q, t.bitAt q = if q < p then parityBit (s.chanAt q) else s.bitAt q) ∧
      t.bitlen = BitVec.ofNat 32 p ∧
      t = { s with
        bits := t.bits, bitlen := t.bitlen, pos := t.pos, phase := .idle
        status := { busy := false, done := true, result := 0, busyErr := s.status.busyErr } } := by
  have hstop : s.stopFrom s.streamLength 0 = p :=
    s.stopFrom_eq _ 0 p (Nat.zero_le p) (by omega) (fun q _ hq => hbefore q hq) fun _ => hzero
  obtain ⟨m, h, hbits, -⟩ := exec_decode_run hg
  rw [hstop] at h hbits
  rw [if_pos hp] at h
  exact ⟨_, h, hbits, rfl, rfl⟩

/-- Settles O37: the first 0 of the encoded stream is its sentinel, and before it `parityBit_adjust` reads each bit back. -/
theorem decodeUndoesEncode : Obligations.DecodeUndoesEncode := by
  intro s hch hN hfit
  obtain ⟨t, ht, hdata, hsentinel, -, -⟩ := encodeWritesParitiesAndSentinel s hch hN hfit
  refine ⟨t, ht, fun v hwidth hheight hchannels hparams himage => ?_⟩
  have hlength : v.streamLength = 3 * s.width.toNat * s.height.toNat := by rw [State.streamLength, hwidth, hheight]
  have hgrid : v.gridRefusal = none :=
    v.gridRefusal_eq_none.2 ⟨hchannels.trans hch, by rw [hlength, hparams]; exact hN⟩
  have hstream : ∀ i, i < s.bitlen.toNat → v.chanAt i = adjust (s.chanAt i) (s.bitAt i) := fun i hi =>
    (himage i (by omega)).trans (hdata i hi)
  obtain ⟨u, hu, hbits, hbitlen, hframe⟩ := exec_decode_of_first_zero (p := s.bitlen.toNat) hgrid (by omega)
    ((himage _ (by omega)).trans hsentinel) fun i hi => by rw [hstream i hi]; exact adjust_ne_zero _ _
  refine ⟨u, hu, by rw [hframe], ?_, fun i hi => ?_⟩
  · rw [hbitlen, BitVec.ofNat_toNat, BitVec.setWidth_eq]
  · rw [hbits, if_pos hi, hstream i hi, parityBit_adjust]

end Sys2Proof.Machine
end

section
/-! SUPPORT. DECODE (R130 to R139): the two ways it reads an accepted stream, that it reads no position after the one that stops
it, and the payload's whole round trip. -/

namespace Sys2Proof.Machine

/-! ## What DECODE leaves -/

/-- A position of an accepted stream, or its end, is held exactly by BITLEN (R5, R6, R177). -/
theorem State.toNat_decodedBitlen {s : State} {p : Nat} (hlegal : s.params.Legal) (hN : s.streamLength ≤ s.params.maxChan)
    (hp : p ≤ s.streamLength) : (BitVec.ofNat 32 p).toNat = p := by
  obtain ⟨-, hchan, -, hbits⟩ := hlegal
  rw [BitVec.toNat_ofNat, Nat.mod_eq_of_lt (by omega)]

/-- Settles O30, by `exec_decode_of_first_zero`. -/
theorem decodeStopsAtTheSentinel : Obligations.DecodeStopsAtTheSentinel := by
  intro s p hlegal hch hN hp hzero hbefore
  obtain ⟨t, h, hbits, hbitlen, hframe⟩ :=
    exec_decode_of_first_zero (s.gridRefusal_eq_none.2 ⟨hch, hN⟩) hp hzero hbefore
  refine ⟨t, h, fun q hq => ?_, fun q hq => ?_, ?_, hframe⟩
  · exact (hbits q).trans (if_pos hq)
  · exact (hbits q).trans (if_neg (Nat.not_lt.2 hq))
  · rw [hbitlen, State.toNat_decodedBitlen hlegal hN hp.le]

/-- DECODE of an accepted grid without a 0: the N parities, BITLEN N, RESULT 2, and nothing else but POS (R131, R134). -/
theorem exec_decode_of_no_zero {s : State} (hg : s.gridRefusal = none)
    (hnonzero : ∀ q, q < s.streamLength → s.chanAt q ≠ 0) :
    ∃ t, exec .decode s = .next t ∧
      (∀ q, t.bitAt q = if q < s.streamLength then parityBit (s.chanAt q) else s.bitAt q) ∧
      t.bitlen = BitVec.ofNat 32 s.streamLength ∧
      t = { s with
        bits := t.bits, bitlen := t.bitlen, pos := t.pos, phase := .idle
        status := { busy := false, done := true, result := 2, busyErr := s.status.busyErr } } := by
  have hstop : s.stopFrom s.streamLength 0 = s.streamLength :=
    s.stopFrom_eq _ 0 _ (Nat.zero_le _) (by omega) (fun q _ hq => hnonzero q hq) fun hlt => by omega
  obtain ⟨m, h, hbits, -⟩ := exec_decode_run hg
  rw [hstop] at h hbits
  rw [if_neg (Nat.lt_irrefl _)] at h
  exact ⟨_, h, hbits, rfl, rfl⟩

/-- Settles O31, by `exec_decode_of_no_zero`. -/
theorem decodeWithoutSentinelIsMalformed : Obligations.DecodeWithoutSentinelIsMalformed := by
  intro s hlegal hch hN hnonzero
  obtain ⟨t, h, hbits, hbitlen, hframe⟩ := exec_decode_of_no_zero (s.gridRefusal_eq_none.2 ⟨hch, hN⟩) hnonzero
  refine ⟨t, h, fun q hq => ?_, fun q hq => ?_, ?_, hframe⟩
  · exact (hbits q).trans (if_pos hq)
  · exact (hbits q).trans (if_neg (Nat.not_lt.2 hq))
  · rw [hbitlen]
    exact State.toNat_decodedBitlen hlegal hN (Nat.le_refl _)

/-! ## What DECODE reads -/

/-- The grid checks look only at the grid and the parameters (R176, R177). -/
theorem State.gridRefusal_congr {s v : State} (hlength : v.streamLength = s.streamLength) (hchannels : v.channels = s.channels)
    (hparams : v.params = s.params) : v.gridRefusal = s.gridRefusal := by
  rw [State.gridRefusal, State.gridRefusal, hlength, hchannels, hparams]

/-- Where DECODE stops is fixed by the stream's positions up to there (R133). -/
theorem State.stopFrom_congr {s v : State} {n : Nat}
    (hchan : ∀ q, q ≤ s.stopFrom n 0 → q < n → v.chanAt q = s.chanAt q) : v.stopFrom n 0 = s.stopFrom n 0 := by
  obtain ⟨-, hend, hnonzero, hzero⟩ := s.stopFrom_spec n 0
  refine v.stopFrom_eq n 0 _ (Nat.zero_le _) hend (fun q hq hlt => ?_) fun hlt => ?_
  · rw [hchan q hlt.le (by omega)]
    exact hnonzero q hq hlt
  · rw [hchan _ (Nat.le_refl _) (by omega)]
    exact hzero hlt

/-- DECODE reads the stream up to where it stops, and no position after it: states that agree there, and in the grid, BITLEN and
BITS, decode alike (R133, R135). -/
theorem exec_decode_congr {s v : State} (hlength : v.streamLength = s.streamLength) (hchannels : v.channels = s.channels)
    (hparams : v.params = s.params) (hbitlen : v.bitlen = s.bitlen) (hbits : ∀ i, v.bitAt i = s.bitAt i)
    (hchan : ∀ q, q ≤ s.stopFrom s.streamLength 0 → q < s.streamLength → v.chanAt q = s.chanAt q) :
    ∃ t u, exec .decode s = .next t ∧ exec .decode v = .next u ∧
      u.status.result = t.status.result ∧ u.bitlen = t.bitlen ∧ ∀ i, u.bitAt i = t.bitAt i := by
  have hgrid := State.gridRefusal_congr hlength hchannels hparams
  cases hg : s.gridRefusal with
  | some c => exact ⟨_, _, exec_decode_refused hg, exec_decode_refused (hgrid.trans hg), rfl, hbitlen, hbits⟩
  | none =>
    obtain ⟨_, ht, htbits, -⟩ := exec_decode_run hg
    obtain ⟨_, hu, hubits, -⟩ := exec_decode_run (hgrid.trans hg)
    rw [hlength, State.stopFrom_congr hchan] at hu hubits
    refine ⟨_, _, ht, hu, rfl, rfl, fun i => ((hubits i).trans ?_).trans (htbits i).symm⟩
    by_cases hi : i < s.stopFrom s.streamLength 0
    · have hend := (s.stopFrom_spec s.streamLength 0).2.1
      rw [if_pos hi, if_pos hi, hchan i hi.le (by omega)]
    · rw [if_neg hi, if_neg hi, hbits]

/-- Settles O35: the positions up to where DECODE stops are among those that agree, since it stops no later than at the 0 at
p − 1, or no later than at the end of the stream. -/
theorem decodeReadsOnlyUpToTheSentinel : Obligations.DecodeReadsOnlyUpToTheSentinel := by
  intro s v p hwidth hheight hchannels hparams hp hagree hbitlen hbits
  have hlength : v.streamLength = s.streamLength := by rw [State.streamLength, State.streamLength, hwidth, hheight]
  refine exec_decode_congr hlength hchannels hparams hbitlen hbits fun q hq hqN => hagree q ?_
  obtain rfl | ⟨-, hpos, hzero⟩ := hp
  · exact hqN
  · have hstop := s.stopFrom_le (n := s.streamLength) (.inl hzero)
    omega

/-! ## The payload's round trip -/

/-- UNPACK has no way to fail (R146, R170). -/
theorem exec_unpack_result {s t : State} (h : exec .unpack s = .next t) : t.status.result = 0 := by
  obtain ⟨_, hm, -⟩ := exec_unpack s
  obtain rfl := Host.Outcome.next.inj (h.symm.trans hm)
  rfl

/-- ENCODE of bits that fit an admitted grid completes with RESULT 0 (R111, R118). -/
theorem exec_encode_result {s t : State} (hch : s.channels = 3) (hN : s.streamLength ≤ s.params.maxChan)
    (hfit : s.bitlen.toNat + 1 ≤ s.streamLength) (h : exec .encode s = .next t) : t.status.result = 0 := by
  obtain ⟨u, hu, -, -, -, hframe⟩ := encodeWritesParitiesAndSentinel s hch hN hfit
  rw [Host.Outcome.next.inj (h.symm.trans hu), hframe]

/-- Settles O38: PACK leaves the payload's bits and their number, `decodeUndoesEncode` carries both through the image, and
`exec_unpack_of_payBits` reads the payload back. -/
theorem payloadSurvivesTheRoundTrip : Obligations.PayloadSurvivesTheRoundTrip := by
  intro s hlegal hpay hch hN hfit
  obtain ⟨t1, ht1, hpacked, -, hlen, hframe⟩ := exec_pack_by_bytes s
  have hwidth : t1.width = s.width := by rw [hframe]
  have hheight : t1.height = s.height := by rw [hframe]
  have hchannels : t1.channels = s.channels := by rw [hframe]
  have hparams : t1.params = s.params := by rw [hframe]
  have hlen_nat : t1.bitlen.toNat = 8 * s.bytelen.toNat := by rw [hlen, State.toNat_packedBitlen hlegal hpay]
  have hch1 : t1.channels = 3 := hchannels.trans hch
  have hN1 : 3 * t1.width.toNat * t1.height.toNat ≤ t1.params.maxChan := by rwa [hwidth, hheight, hparams]
  have hfit1 : t1.bitlen.toNat + 1 ≤ 3 * t1.width.toNat * t1.height.toNat := by rwa [hlen_nat, hwidth, hheight]
  obtain ⟨t2, ht2, hdecode⟩ := decodeUndoesEncode t1 hch1 hN1 hfit1
  rw [hwidth, hheight, hchannels, hparams] at hdecode
  refine ⟨t1, t2, ht1, ht2, exec_encode_result hch1 hN1 hfit1 ht2, fun v hw hh hc hp himage => ?_⟩
  obtain ⟨u1, hu1, hresult, hbitlen, hbits⟩ := hdecode v hw hh hc hp himage
  obtain ⟨u2, hu2, hbytelen, hbytes⟩ := exec_unpack_of_payBits (s := s) (v := u1) (n := s.bytelen.toNat)
    (by rw [hbitlen, hlen_nat]) fun k j hk hj => by rw [hbits _ (by omega), hpacked k j hk hj]
  exact ⟨u1, u2, hu1, hu2, hresult, exec_unpack_result hu2,
    by rw [hbytelen, BitVec.ofNat_toNat, BitVec.setWidth_eq], hbytes⟩

end Sys2Proof.Machine
end

section
/-! SUPPORT. UNPACK: the number that eight bits make, and what the command leaves in PAY and BYTELEN. -/

namespace Sys2Proof.Machine

/-! ## The byte of eight bits -/

/-- A bit appended below a word doubles the word and adds the bit. -/
theorem toNat_append_bit {n : Nat} (x : BitVec n) (b : Bit) : (x ++ b).toNat = 2 * x.toNat + b.toNat := by
  rw [BitVec.toNat_append, ← Nat.shiftLeft_add_eq_or_of_lt b.isLt, Nat.shiftLeft_eq, Nat.pow_one, Nat.mul_comm]

/-- UNPACK's byte k is the number of its eight bits, the first the most significant (R146). -/
theorem State.toNat_bitsByte (s : State) (k : Nat) :
    (s.bitsByte k).toNat = ∑ j ∈ Finset.range 8, (s.bitAt (8 * k + j)).toNat * 2 ^ (7 - j) := by
  have hbyte : (s.bitsByte k).toNat =
      2 * (2 * (2 * (2 * (2 * (2 * (2 * (s.bitAt (8 * k)).toNat + (s.bitAt (8 * k + 1)).toNat) +
        (s.bitAt (8 * k + 2)).toNat) + (s.bitAt (8 * k + 3)).toNat) + (s.bitAt (8 * k + 4)).toNat) +
        (s.bitAt (8 * k + 5)).toNat) + (s.bitAt (8 * k + 6)).toNat) + (s.bitAt (8 * k + 7)).toNat := by
    simp only [State.bitsByte, toNat_append_bit]
  simp only [hbyte, Finset.sum_range_succ, Finset.sum_range_zero, Nat.add_zero]
  omega

/-! ## What UNPACK leaves -/

/-- The BYTELEN that UNPACK writes is exact in every state, since it is less than BITLEN's bound. -/
theorem State.toNat_unpackedBytelen (s : State) :
    (BitVec.ofNat 32 (s.bitlen.toNat / 8)).toNat = s.bitlen.toNat / 8 := by
  rw [BitVec.toNat_ofNat, Nat.mod_eq_of_lt (lt_of_le_of_lt (Nat.div_le_self _ _) s.bitlen.isLt)]

/-- Settles O32: `exec_unpack` says which byte each PAY entry holds, and `State.toNat_bitsByte` which number that byte is. -/
theorem unpackAssemblesWholeBytes : Obligations.UnpackAssemblesWholeBytes := by
  intro s
  obtain ⟨m, h, hpay, -⟩ := exec_unpack s
  refine ⟨_, h, fun k hk => ?_, fun k hk => ?_, s.toNat_unpackedBytelen, rfl⟩
  · rw [← s.toNat_bitsByte]
    exact congrArg BitVec.toNat ((hpay k).trans (if_pos hk))
  · exact (hpay k).trans (if_neg (Nat.not_lt.2 hk))

end Sys2Proof.Machine
end

section
/-! SUPPORT. The control commands as the host runs them: NOP, and a word that decodes to no command, from the accepted CMD write to
the completion. -/

namespace Sys2Proof.Machine

/-! ## The engine's turn after an accepted CMD write -/

/-- NOP's word, once accepted, completes with code 0 (R84, R155). -/
theorem engineTurn_accept_nop (s : State) : engineTurn (s.accept 0) = .next ((s.accept 0).complete .ok) :=
  (engineTurn_run rfl ((decode_eq_ok_iff _ .nop).2 rfl)).trans (exec_nop _)

/-- A word that decodes to no command, once accepted, completes with code 5 (R156). -/
theorem engineTurn_accept_illegal (s : State) {w : Word} (h : ∀ i, decode w ≠ .ok i) :
    engineTurn (s.accept w) = .next ((s.accept w).complete .illegalCommand) := by
  cases hd : decode w with
  | ok i => exact absurd hd (h i)
  | error r => exact engineTurn_illegal rfl hd

/-! ## The STATUS word after `complete(0)` -/

/-- With BUSY 0, DONE 1 and RESULT 0 the STATUS word is DONE, bit 1, and BUSY_ERR, bit 8 (R25): STATUS stores seven bits, so its
words are finitely many. -/
theorem Status.toWord_done_ok (t : Status) :
    Status.toWord { busy := false, done := true, result := 0, busyErr := t.busyErr } = (t.toWord &&& 0x100) ||| 0x2 := by
  obtain ⟨busy, done, result, busyErr⟩ := t
  revert busy done result busyErr
  decide

/-! ## The statements -/

/-- Settles O7: the accepted CMD write, and the engine's turn on a word that decodes to no command. -/
theorem illegalWordCompletesWithCodeFive : Obligations.IllegalWordCompletesWithCodeFive := by
  intro s w hb hillegal
  exact ⟨s.accept w, memWrite_cmd_idle hb w, rfl, rfl, engineTurn_accept_illegal s hillegal⟩

/-- Settles O6: NOP's word, its completion in every state, and its run from the accepted CMD write. -/
theorem nopOnlyCompletes : Obligations.NopOnlyCompletes := by
  refine ⟨rfl, exec_nop, fun s hb => ?_⟩
  exact ⟨s.accept 0, (s.accept 0).complete .ok, memWrite_cmd_idle hb 0, engineTurn_accept_nop s,
    s.status.toWord_done_ok, rfl⟩

end Sys2Proof.Machine
end

section
/-! SUPPORT. The result codes of the grid and the capacity (R171, R176, R177): which command refuses a grid with which code, and that
a refusal writes no more than its report. -/

namespace Sys2Proof.Machine

/-! ## Refusal of a grid -/

/-- The two commands that check the grid refuse it alike: they complete with the check's code and write nothing else (R176, R177). -/
theorem exec_grid_refused {i : Instr} {s : State} {c : Code} (hi : i = .encode ∨ i = .decode) (h : s.gridRefusal = some c) :
    exec i s = .next (s.complete c) := by
  rcases hi with rfl | rfl
  · exact exec_encode_refused h
  · exact exec_decode_refused h

/-! ## The statements -/

/-- Settles O27: `State.gridRefusal_eq_some` names the code of each failed check, and PACK and UNPACK complete from every state. -/
theorem gridIsRefusedBeforeAnyWrite : Obligations.GridIsRefusedBeforeAnyWrite := by
  intro s
  refine ⟨fun i hi => ⟨fun hch => ?_, fun hch hN => ?_⟩, fun i hi => ?_⟩
  · exact exec_grid_refused hi ((s.gridRefusal_eq_some _).2 (.inl ⟨hch, rfl⟩))
  · exact exec_grid_refused hi ((s.gridRefusal_eq_some _).2 (.inr ⟨hch, hN, rfl⟩))
  · rcases hi with rfl | rfl
    · obtain ⟨_, h, -⟩ := exec_pack s
      exact ⟨_, h, rfl⟩
    · obtain ⟨_, h, -⟩ := exec_unpack s
      exact ⟨_, h, rfl⟩

/-- Settles O28: the grid passes R176 and R177, so `exec_encode_exceeded` gives the report, whose words are BITLEN and the capacity. -/
theorem capacityExceededReportsOnly : Obligations.CapacityExceededReportsOnly := by
  intro s hch hN hlen
  exact exec_encode_exceeded (s.gridRefusal_eq_none.2 ⟨hch, hN⟩) hlen

end Sys2Proof.Machine
end

section
/-! SUPPORT. The reset state, and the busy rules: where a reset leaves the block, which host accesses a running command drops or
answers with a draw, and that the command finishes once the interleaving is over. -/

namespace Sys2Proof.Machine

/-! ## The reset state (R195) -/

/-- The state after reset is in bounds: its parameters are legal, its buffers start with nothing listed and the lengths at 0. -/
theorem State.reset_inBounds : State.reset.InBounds where
  params := Config.params_legal
  chanForm := State.reset_memory_wf.1
  bitsForm := State.reset_memory_wf.2.1
  payForm := State.reset_memory_wf.2.2
  chanInside := rfl
  bitsInside := rfl
  payInside := rfl
  bitlenLegal := Nat.zero_le _
  bytelenLegal := Nat.zero_le _
  posRange := Nat.zero_le _

/-- Both kinds of reset end by clearing the registers and the engine. -/
theorem perform_reset_clears (s : State) {e : Event} (he : e = .reset ∨ e = .powerOn) :
    ∃ u, perform e s = .next (State.clearRegs u) := by
  rcases he with rfl | rfl
  · exact ⟨s.abandonRunning, rfl⟩
  · exact ⟨s.clearBuffers, rfl⟩

/-- STATUS reads 0 after a reset (R25). -/
theorem State.clearRegs_statusWord (u : State) : u.clearRegs.status.toWord = 0 := by
  rw [State.clearRegs_status]
  rfl

/-- With the grid cleared N is 0, so the capacity is −1 (R31). -/
theorem State.clearRegs_capacityWord (u : State) : u.clearRegs.capacityWord = 0xFFFFFFFF := rfl

/-- CAPACITY reads all ones after a reset. -/
theorem memRead_capacity_clearRegs (u : State) :
    memRead 0x20 .word u.clearRegs = .next (u.clearRegs.respond 0xFFFFFFFF) := by
  rw [memRead_reg u.clearRegs 0x20 .capacity rfl, State.readReg, u.clearRegs_capacityWord]

/-! ## Window accesses while BUSY = 1 (R202, R203) -/

/-- An access that the map admits above the registers reaches a window. -/
theorem resolve_window_of_mapAdmits {p : Params} {a : Word} {n : Size} (h : MapAdmits p a.toNat n) (ha : 0x2C ≤ a.toNat) :
    ∃ b i, resolve p a n = some (.window b i) := by
  obtain ⟨target, ht⟩ := Option.isSome_iff_exists.1 ((mapAdmits_iff p a n).1 h)
  cases target with
  | reg r =>
    have hoffset := (resolve_reg ht).1
    have hlow := r.offset_lt
    omega
  | window b i => exact ⟨b, i, ht⟩

/-- What is kept of a draw fits the access. -/
theorem Size.toNat_truncate_lt (n : Size) (v : Word) : (n.truncate v).toNat < 256 ^ n.bytes := by
  cases n with
  | byte => exact (BitVec.toNat_setWidth_of_le (by decide)).trans_lt (v.setWidth 8).isLt
  | half => exact (BitVec.toNat_setWidth_of_le (by decide)).trans_lt (v.setWidth 16).isLt
  | word => exact v.isLt

/-! ## The end of a run (R206, R208) -/

/-- The turn of a running engine is a completion, of a state that differs from s in the command's outputs at most. -/
theorem engineTurn_completes {s : State} (h : s.phase = .run) :
    ∃ u c, engineTurn s = .next (State.complete u c) ∧ s.SameButOutputs u := by
  cases hd : decode s.opl with
  | ok i =>
    obtain ⟨u, c, hu, -, hs⟩ := exec_completes i s
    exact ⟨u, c, (engineTurn_run h hd).trans hu, hs⟩
  | error r => exact ⟨s, .illegalCommand, engineTurn_illegal h hd, s.sameButOutputs_update ..⟩

/-- An idle block with nothing left to happen stays as it is. -/
theorem step_idle_nil {s : State} (he : s.events = []) (hp : s.phase = .idle) : step s = .next s :=
  (step_nil he).trans (engineTurn_idle hp)

/-! ## The statements -/

/-- Settles O9: the step is the engine's turn, a completion that leaves the interleaving empty. -/
theorem runningCommandFinishes : Obligations.RunningCommandFinishes := by
  intro s he hp
  obtain ⟨u, c, hu, hs⟩ := engineTurn_completes hp
  have hempty : (u.complete c).events = [] := hs.events.trans he
  exact ⟨u.complete c, (step_nil he).trans hu, rfl, rfl, ⟨hempty, rfl⟩, step_idle_nil hempty rfl⟩

/-- Settles O19: registers by `memWrite_reg_dropped`, windows by `memWrite_of_window_busy`, STATUS and the read-only registers by
their laws, which ask nothing of BUSY. -/
theorem busyWritesAreDropped : Obligations.BusyWritesAreDropped := by
  intro s v hb
  refine ⟨fun a ha => memWrite_reg_dropped hb v ha, fun a n hmap ha => ?_, ?_, fun a => memWrite_readOnly s a v⟩
  · obtain ⟨b, i, hr⟩ := resolve_window_of_mapAdmits hmap ha
    exact memWrite_of_window_busy hr hb v
  · rw [memWrite_status, State.writeStatus_eq]

/-- Settles O20: the access reaches a window, and what it returns is a draw cut to its width. -/
theorem busyWindowReadsAreDraws : Obligations.BusyWindowReadsAreDraws := by
  intro s a n hb hmap ha
  obtain ⟨b, i, hr⟩ := resolve_window_of_mapAdmits hmap ha
  exact ⟨n.truncate (Config.busyRead s.draws), n.toNat_truncate_lt _, memRead_of_window_busy hr hb⟩

/-- Settles O41: the reset state is a cleared one, and its buffers and lengths are in bounds. -/
theorem resetStateIsLegal : Obligations.ResetStateIsLegal := State.reset_inBounds.clearRegs

/-- Settles O43: both resets, and the state the machine starts in, are cleared states. -/
theorem resetLeavesTheStatedValues : Obligations.ResetLeavesTheStatedValues := by
  refine ⟨fun s e he => ?_, rfl, rfl, rfl, rfl, rfl, rfl, rfl, rfl, rfl, rfl, rfl, memRead_capacity_clearRegs State.reset⟩
  obtain ⟨u, hu⟩ := perform_reset_clears s he
  exact ⟨u.clearRegs, hu, u.clearRegs_statusWord, rfl, rfl, rfl, rfl, rfl, rfl, rfl, rfl, rfl, rfl,
    memRead_reg _ 0x00 .id rfl, memRead_reg _ 0x04 .cmd rfl, memRead_capacity_clearRegs u⟩

end Sys2Proof.Machine
end
